-- ==== Sys2Proof/Word.lean ====
section
/-! DEFINITION. The word types of the block: the 32-bit data path (spec/00_scope.md R9), the byte of the word
splitter (spec/10_state.md R27) and the 40-bit command word (spec/30_encoding.md R70). -/

namespace Sys2Proof

/-- A 32-bit value of the data path: POLY, INIT, CRC, SR and the command operand DATA (R9, R70). -/
abbrev Word := BitVec 32

/-- One byte of a binary stream, and each register of the word splitter (R27). -/
abbrev Byte := BitVec 8

/-- One transaction of the command port: OP in bits 39..32, DATA in bits 31..0 (R70). -/
abbrev CommandWord := BitVec 40

end Sys2Proof
end

