-- ==== Sys2Proof/Config.lean ====
section
/-! DEFINITION. What the spec fixes for the block at reset, and the free values it leaves open: a reset event
leaves CRC, B0, B1 and B2 UNSPEC, "a draw" (spec/10_state.md R33, spec/70_reset_and_hazards.md R240, R242).
Each draw is a constant without a body applied to the number of the reset event, so nothing proved about the
model can depend on what it is (assumption log 6). -/

namespace Sys2Proof.Config

/-- Reset value of WIDTH (R33; decision D12). -/
def resetWidth : BitVec 6 := 32

/-- Reset value of POLY (R33; decision D12). -/
def resetPoly : Word := 0x04C11DB7

/-- Reset value of INIT (R33; decision D12). -/
def resetInit : Word := 0xFFFFFFFF

/-- FREE VALUE: what CRC holds after the n-th reset event (R33, R242). DESIGN CHOICE, safe (log 6). -/
opaque drawCrc : Nat → Word

/-- FREE VALUE: what B0 holds after the n-th reset event (R27, R33). DESIGN CHOICE, safe (log 6). -/
opaque drawB0 : Nat → Byte

/-- FREE VALUE: what B1 holds after the n-th reset event (R27, R33). DESIGN CHOICE, safe (log 6). -/
opaque drawB1 : Nat → Byte

/-- FREE VALUE: what B2 holds after the n-th reset event (R27, R33). DESIGN CHOICE, safe (log 6). -/
opaque drawB2 : Nat → Byte

end Sys2Proof.Config
end

