-- ==== Sys2Proof/Syntax.lean ====
section
/-! DEFINITION. The ten commands of the block (spec/30_encoding.md R72), one constructor for each row of
spec/opcode_table.json. The operand types carry the operand constraints of R74 and R75: an operand-less command
has no operand and BYTE has eight bits, so every term of Instr is a command the block can be given. -/

namespace Sys2Proof

/-- A command, with its operand as the command uses it (R71). -/
inductive Instr where
  /-- NOP, OP 0x00: no operation (spec/42_control.md R170). -/
  | nop
  /-- SETW, OP 0x01: set the CRC register width; all 32 operand bits are compared with 1..32 when it executes
  (R173). -/
  | setw (data : Word)
  /-- SETP, OP 0x02: set the polynomial (R175). -/
  | setp (data : Word)
  /-- SETI, OP 0x03: set the initial CRC value (R176). -/
  | seti (data : Word)
  /-- START, OP 0x04: open a chain (spec/41_chainer.md R131). -/
  | start
  /-- STEPW, OP 0x05: fold one whole word (R135). -/
  | stepw (data : Word)
  /-- BYTE, OP 0x06: feed one byte of a binary stream (R141). -/
  | byte (data : Byte)
  /-- FINISH, OP 0x07: fold a partial group and close the chain (R151). -/
  | finish
  /-- ABORT, OP 0x08: report an I/O error (R178). -/
  | abort
  /-- CLRERR, OP 0x09: clear the error bits (R181). -/
  | clrerr
  deriving DecidableEq, Repr

/-- The pseudo-instructions of the assembler (spec/30_encoding.md R80), with their operands as data. The text
between quotes is a list of characters; what number a character stands for is the host's map (R136). -/
inductive Pseudo where
  /-- `CONFIG w, p, i`: the three configuration inputs. -/
  | config (w p i : Word)
  /-- `CRCSTEP x`: one CRC step of the word x from INIT. -/
  | crcstep (x : Word)
  /-- `TEXT "s1", "s2", …`: a text chain. -/
  | text (strings : List (List Char))
  /-- `FILE b0, b1, …`: a binary chain. -/
  | file (bytes : List Byte)
  deriving DecidableEq, Repr

end Sys2Proof
end

