-- ==== Sys2Proof/Machine/State.lean ====
section
/-! DEFINITION. The state of the block, exactly the record of spec/10_state.md R20, and beside it what the host has
still to present to it; the machine right after reset; the types of the output ports and of the four errors. -/

namespace Sys2Proof.Machine

/-- STATUS, with the fields of R26. How the fields lie in the 8 bits of STATUS_OUT is `Status.toBits`
(Machine/Flags.lean). DESIGN CHOICE, safe (log 13). -/
structure Status where
  /-- Bit 0: a chain is open. -/
  active : Bool
  /-- Bit 1: CRC holds the final result of a completed chain. -/
  valid : Bool
  /-- Bits 3:2: number of bytes held in the word splitter. -/
  bcnt : BitVec 2
  /-- Bit 4: configuration error. -/
  errCfg : Bool
  /-- Bit 5: sequence error. -/
  errSeq : Bool
  /-- Bit 6: I/O error reported by the host. -/
  errIo : Bool
  /-- Bit 7: illegal command. -/
  errIll : Bool
  deriving DecidableEq, Repr

/-- The state of the block: these fields and no others (R20). -/
structure Block where
  /-- WIDTH, the CRC register width, legal values 1..32 (R21). -/
  width : BitVec 6
  /-- POLY, the polynomial, stored unmasked (R22). -/
  poly : Word
  /-- INIT, the value START copies into CRC, stored unmasked (R23). -/
  init : Word
  /-- CRC, the running CRC (R24). -/
  crc : Word
  /-- STATUS (R26). -/
  status : Status
  /-- B0, first byte of the incomplete group (R27). -/
  b0 : Byte
  /-- B1, second byte (R27). -/
  b1 : Byte
  /-- B2, third byte (R27). -/
  b2 : Byte
  deriving DecidableEq, Repr

/-- What the host can do to the block: one command transaction, or the reset input (R29). -/
inductive HostEvent where
  /-- One 40-bit word on the command port (R29 (a)). -/
  | command (w : CommandWord)
  /-- The reset input is asserted (R29 (b), R240). DEDUCED, safe (log 3). -/
  | reset
  deriving DecidableEq, Repr

/-- The block and the host's side of the interface. R31: "a model treats the command stream as a sequence". -/
structure State where
  /-- The block itself (R20). -/
  block : Block
  /-- What the host presents from now on, first event first. It is the host's, not the block's (R12, R28).
  DESIGN CHOICE, safe (log 1). -/
  port : List HostEvent
  /-- The model's own counter of performed reset events, which selects the free values of the next one. DESIGN
  CHOICE, safe (log 6). -/
  draws : Nat
  deriving DecidableEq, Repr

/-- No command stops the machine: an error changes only STATUS, and there is no other error, trap or exception
(spec/60_exceptions.md R200, R208). Nobody raises a fault, so there is none. DEDUCED, safe (log 15). -/
inductive Fault where
  deriving DecidableEq, Repr

/-- Why the model has no meaning for a command. -/
inductive Refusal where
  /-- Raised by an arm of `exec` for a command that has no meaning yet. Safe: the run stops. No arm raises it. -/
  | notModelled (mnemonic : String)
  deriving DecidableEq, Repr

/-- The four errors (spec/60_exceptions.md R200), each one sticky bit of STATUS. -/
inductive ErrorKind where
  /-- ERR_CFG, code 4: a width outside 1..32 was written. -/
  | cfg
  /-- ERR_SEQ, code 5: a command not allowed in the current state. -/
  | seq
  /-- ERR_IO, code 6: the host reported that the byte stream failed. -/
  | io
  /-- ERR_ILL, code 7: reserved opcode, or reserved DATA bits not zero. -/
  | ill
  deriving DecidableEq, Repr

/-- The five output ports (R30). -/
structure Ports where
  /-- CRC_OUT. -/
  crcOut : Word
  /-- STATUS_OUT. -/
  statusOut : BitVec 8
  /-- WIDTH_OUT. -/
  widthOut : BitVec 6
  /-- POLY_OUT. -/
  polyOut : Word
  /-- INIT_OUT. -/
  initOut : Word
  deriving DecidableEq, Repr

/-- STATUS = 0x00 (R33). -/
def Status.clear : Status :=
  { active := false, valid := false, bcnt := 0, errCfg := false, errSeq := false, errIo := false, errIll := false }

/-- The block after reset (R33, R240), for any draw of the four registers the spec leaves UNSPEC. -/
def Block.atReset (crc : Word) (b0 b1 b2 : Byte) : Block :=
  { width := Config.resetWidth, poly := Config.resetPoly, init := Config.resetInit, crc := crc,
    status := Status.clear, b0 := b0, b1 := b1, b2 := b2 }

/-- The machine right after reset, the host having presented nothing. CRC, B0, B1 and B2 are UNSPEC in the spec; the
model names 0 for each here. DESIGN CHOICE, unsafe (log 4, log 5): a claim about the state after reset is stated for
every draw, of `Block.atReset`, and not about these zeros. -/
def State.reset : State := { block := Block.atReset 0 0 0 0, port := [], draws := 0 }

end Sys2Proof.Machine
end

