-- ==== Sys2Proof/Machine/Flags.lean ====
section
/-! DEFINITION. STATUS: its layout on STATUS_OUT (spec/10_state.md R26, R30), the error bits, what an error and
CLRERR do to it (spec/60_exceptions.md R200, R203, spec/42_control.md R181), and the writes of the chain lifecycle. -/

namespace Sys2Proof.Machine

/-- The 8 bits of STATUS, bit 7 first: ERR_ILL, ERR_IO, ERR_SEQ, ERR_CFG, BCNT, VALID, ACTIVE (R26). -/
def Status.toBits (t : Status) : BitVec 8 :=
  BitVec.ofBool t.errIll ++ BitVec.ofBool t.errIo ++ BitVec.ofBool t.errSeq ++ BitVec.ofBool t.errCfg ++ t.bcnt
    ++ BitVec.ofBool t.valid ++ BitVec.ofBool t.active

/-- ERR ≠ 0: at least one error bit is set (R26). -/
def Status.errorSet (t : Status) : Bool := t.errCfg || t.errSeq || t.errIo || t.errIll

/-- The bit of STATUS that records an error, which is the error's code (R200). -/
def ErrorKind.code : ErrorKind → Nat
  | .cfg => 4
  | .seq => 5
  | .io => 6
  | .ill => 7

/-- Whether an error is recorded. -/
def Status.has (t : Status) : ErrorKind → Bool
  | .cfg => t.errCfg
  | .seq => t.errSeq
  | .io => t.errIo
  | .ill => t.errIll

/-- Sets the bit of one error and leaves the rest of STATUS (R201: nothing else is recorded). -/
def Status.record (t : Status) : ErrorKind → Status
  | .cfg => { t with errCfg := true }
  | .seq => { t with errSeq := true }
  | .io => { t with errIo := true }
  | .ill => { t with errIll := true }

/-- What raising an error does to STATUS: its bit set, ACTIVE, VALID and BCNT cleared (R203). -/
def Status.raise (t : Status) (e : ErrorKind) : Status :=
  { t.record e with active := false, valid := false, bcnt := 0 }

/-- What CLRERR does to STATUS: the four error bits cleared (R181). -/
def Status.clearErrors (t : Status) : Status :=
  { t with errCfg := false, errSeq := false, errIo := false, errIll := false }

/-- What opening a chain does to STATUS (R131). -/
def Status.opened (t : Status) : Status := { t with active := true, valid := false, bcnt := 0 }

/-- What FINISH does to STATUS (R151). -/
def Status.finished (t : Status) : Status := { t with active := false, valid := true, bcnt := 0 }

/-- STATUS with another byte count (R141). -/
def Status.withBcnt (t : Status) (n : BitVec 2) : Status := { t with bcnt := n }

end Sys2Proof.Machine
end

