-- ==== Sys2Proof/Machine/Operands.lean ====
section
/-! DEFINITION. The operand forms: the width SETW accepts (spec/42_control.md R173), the little-endian word of four
bytes (spec/20_memory.md R53) and the zero-padded word of a partial group (R55, spec/41_chainer.md R151). -/

namespace Sys2Proof.Machine

/-- The operand of SETW is a width: the whole DATA, unsigned, is in 1..32 (R173). -/
def isWidth (data : Word) : Bool := decide (1 ≤ data.toNat) && decide (data.toNat ≤ 32)

/-- DATA[5:0], what SETW writes (R173). -/
def widthField (data : Word) : BitVec 6 := data.extractLsb' 0 6

/-- The word of a group, its first byte least significant (R53). -/
def groupWord (b0 b1 b2 b3 : Byte) : Word :=
  (b3.setWidth 32 <<< 24) ||| (b2.setWidth 32 <<< 16) ||| (b1.setWidth 32 <<< 8) ||| b0.setWidth 32

/-- The word FINISH folds: the buffered bytes, zero bytes above them; none when no byte is buffered (R55, R151). -/
def partialWord (b : Block) : Option Word :=
  if b.status.bcnt = 1 then some (b.b0.setWidth 32)
  else if b.status.bcnt = 2 then some ((b.b1.setWidth 32 <<< 8) ||| b.b0.setWidth 32)
  else if b.status.bcnt = 3 then
    some ((b.b2.setWidth 32 <<< 16) ||| (b.b1.setWidth 32 <<< 8) ||| b.b0.setWidth 32)
  else none

end Sys2Proof.Machine
end

