-- ==== Sys2Proof/Machine/StepEngine.lean ====
section
/-! DEFINITION. The CRC Step Engine, the polynomial feedback shifter (spec/40_step_engine.md): one iteration, the
sequence SR_0..SR_w, the step and its trace, on the 32-bit hardware registers R101 allows. -/

namespace Sys2Proof.Machine

/-- mask(w), exactly w one-bits (R102). -/
def mask (w : Nat) : Word := BitVec.ofNat 32 (2 ^ w - 1)

/-- One iteration of the feedback shifter (R104): the MSB test on the value before the shift, the XOR after the
shift, the mask in both branches. -/
def shift1 (r poly : Word) (w : Nat) : Word :=
  if r.getLsbD (w - 1) then ((r <<< 1) ^^^ poly) &&& mask w else (r <<< 1) &&& mask w

/-- SR_k, the working register after k iterations; SR_0 is masked (R101, R103, spec/10_state.md R32). -/
def shifter (word poly seed : Word) (w : Nat) : Nat → Word
  | 0 => (seed ^^^ word) &&& mask w
  | k + 1 => shift1 (shifter word poly seed w k) poly w

/-- crc_step(word, poly, seed, w): SR_w, after exactly w iterations (R101, R105, R106). At a width outside 1..32,
which WIDTH never holds (R21), it is the same formula evaluated as it stands. DESIGN CHOICE, unsafe for a claim made
without the width's invariant (log 8). -/
def crcStep (word poly seed : Word) (w : Nat) : Word := shifter word poly seed w w

/-- The hidden sequence SR_0, SR_1, …, SR_w of one step (spec/10_state.md R32), as an observation. That it begins
with SR_0 is a DESIGN CHOICE, safe (log 12). -/
def crcTrace (word poly seed : Word) (w : Nat) : List Word :=
  (List.range (w + 1)).map (shifter word poly seed w)

end Sys2Proof.Machine
end

