-- ==== Sys2Proof/Machine/Ops.lean ====
section
/-! DEFINITION. The named operations on the block: one home for each register write, folding a word, raising an error
(the machine's only exception, spec/60_exceptions.md R203) and clearing the errors (the only return from it, R210),
opening and closing a chain, the word splitter, and reset. -/

namespace Sys2Proof.Machine

/-- WIDTH <- v (spec/10_state.md R21). -/
def Block.setWidth (b : Block) (v : BitVec 6) : Block := { b with width := v }

/-- POLY <- v (R22). -/
def Block.setPoly (b : Block) (v : Word) : Block := { b with poly := v }

/-- INIT <- v (R23). -/
def Block.setInit (b : Block) (v : Word) : Block := { b with init := v }

/-- CRC <- v (R24). -/
def Block.setCrc (b : Block) (v : Word) : Block := { b with crc := v }

/-- STATUS <- t; only the command rules change its fields (R26). -/
def Block.setStatus (b : Block) (t : Status) : Block := { b with status := t }

/-- B[BCNT] <- v, for BCNT in 0..2 (R27, spec/41_chainer.md R141). -/
def Block.storeByte (b : Block) (v : Byte) : Block :=
  if b.status.bcnt = 0 then { b with b0 := v }
  else if b.status.bcnt = 1 then { b with b1 := v }
  else { b with b2 := v }

/-- raise E: the bit of E set, the chain terminated, no result valid, the buffered bytes discarded; CRC, WIDTH, POLY,
INIT and B0..B2 not written (R203). -/
def Block.raise (b : Block) (e : ErrorKind) : Block := b.setStatus (b.status.raise e)

/-- The return from the error condition (R210, spec/42_control.md R181). -/
def Block.clearErrors (b : Block) : Block := b.setStatus b.status.clearErrors

/-- CRC <- crc_step(word, POLY, CRC, WIDTH) (R24, spec/40_step_engine.md R106). -/
def Block.fold (b : Block) (word : Word) : Block := b.setCrc (crcStep word b.poly b.crc b.width.toNat)

/-- START's effect: CRC <- INIT unmasked, ACTIVE <- 1, VALID <- 0, BCNT <- 0 (spec/41_chainer.md R131). -/
def Block.openChain (b : Block) : Block := (b.setCrc b.init).setStatus b.status.opened

/-- BYTE's effect inside a chain: the fourth byte folds the group, an earlier one is buffered (R141). B0..B2 keep
their contents when the group is folded. DEDUCED, unsafe (log 7). -/
def Block.feedByte (b : Block) (v : Byte) : Block :=
  if b.status.bcnt = 3 then
    (b.fold (groupWord b.b0 b.b1 b.b2 v)).setStatus (b.status.withBcnt 0)
  else (b.storeByte v).setStatus (b.status.withBcnt (b.status.bcnt + 1))

/-- The CRC step of FINISH on a partial group, none when no byte is buffered (R151). -/
def Block.foldPartial (b : Block) : Block :=
  match partialWord b with
  | some word => b.fold word
  | none => b

/-- FINISH's effect inside a chain: fold the partial group, BCNT <- 0, ACTIVE <- 0, VALID <- 1 (R151). -/
def Block.closeChain (b : Block) : Block := b.foldPartial.setStatus b.status.finished

/-- The machine with another block; the host's events and the model's counter stay. -/
def State.withBlock (s : State) (b : Block) : State := { s with block := b }

/-- A command that completes, leaving this block. -/
def complete (s : State) (b : Block) : Host.Outcome State Fault Refusal := .next (s.withBlock b)

/-- A command that raises an error: it has exactly the effect of `raise`, and the machine goes on (R202, R203,
R208). -/
def raiseError (e : ErrorKind) (s : State) : Host.Outcome State Fault Refusal := complete s (s.block.raise e)

/-- A command that has no effect. -/
def unchanged (s : State) : Host.Outcome State Fault Refusal := .next s

/-- The block after the n-th reset event: R33's values, and draws for what R33 leaves UNSPEC (R240, R242; log 6). -/
def Block.afterReset (n : Nat) : Block :=
  Block.atReset (Config.drawCrc n) (Config.drawB0 n) (Config.drawB1 n) (Config.drawB2 n)

end Sys2Proof.Machine
end

