-- ==== Sys2Proof/Machine/Chainer.lean ====
section
/-! DEFINITION. The meanings of the Chunk Chainer's commands (spec/41_chainer.md): START, STEPW, BYTE, FINISH. Each
runs after the illegal-command check has passed (spec/60_exceptions.md R207). -/

namespace Sys2Proof.Machine

/-- START: no effect under the error lock, a sequence error inside a chain, else opens a chain (R131, R206). -/
def execStart (s : State) : Host.Outcome State Fault Refusal :=
  if s.block.status.errorSet then unchanged s
  else if s.block.status.active then raiseError .seq s
  else complete s s.block.openChain

/-- STEPW: a sequence error outside a chain or while a byte group is partly filled, else folds its word (R135,
R137). -/
def execStepw (data : Word) (s : State) : Host.Outcome State Fault Refusal :=
  if s.block.status.active = false ∨ s.block.status.bcnt ≠ 0 then raiseError .seq s
  else complete s (s.block.fold data)

/-- BYTE: a sequence error outside a chain, else feeds the word splitter (R141). -/
def execByte (data : Byte) (s : State) : Host.Outcome State Fault Refusal :=
  if s.block.status.active then complete s (s.block.feedByte data)
  else raiseError .seq s

/-- FINISH: a sequence error outside a chain, else folds the partial group and closes the chain (R151). -/
def execFinish (s : State) : Host.Outcome State Fault Refusal :=
  if s.block.status.active then complete s s.block.closeChain
  else raiseError .seq s

end Sys2Proof.Machine
end

