-- ==== Sys2Proof/Machine/Control.lean ====
section
/-! DEFINITION. The meanings of the configuration and control commands (spec/42_control.md): NOP, SETW, SETP, SETI,
ABORT, CLRERR. Each runs after the illegal-command check has passed (spec/60_exceptions.md R207). -/

namespace Sys2Proof.Machine

/-- NOP: `skip`, in any state (R170). -/
def execNop (s : State) : Host.Outcome State Fault Refusal := unchanged s

/-- SETW: refused inside a chain; a width outside 1..32 is a configuration error and leaves WIDTH (R172, R173). -/
def execSetw (data : Word) (s : State) : Host.Outcome State Fault Refusal :=
  if s.block.status.active then raiseError .seq s
  else if !isWidth data then raiseError .cfg s
  else complete s (s.block.setWidth (widthField data))

/-- SETP: refused inside a chain; every value is stored as written (R172, R175). -/
def execSetp (data : Word) (s : State) : Host.Outcome State Fault Refusal :=
  if s.block.status.active then raiseError .seq s
  else complete s (s.block.setPoly data)

/-- SETI: refused inside a chain; stored unmasked, CRC not touched (R172, R176). -/
def execSeti (data : Word) (s : State) : Host.Outcome State Fault Refusal :=
  if s.block.status.active then raiseError .seq s
  else complete s (s.block.setInit data)

/-- ABORT: raises ERR_IO in every state; that is its purpose (R178). -/
def execAbort (s : State) : Host.Outcome State Fault Refusal := raiseError .io s

/-- CLRERR: clears the four error bits and nothing else (R181). -/
def execClrerr (s : State) : Host.Outcome State Fault Refusal := complete s s.block.clearErrors

end Sys2Proof.Machine
end

