-- ==== Sys2Proof/Machine/Dispatch.lean ====
section
/-! DEFINITION. One arm for each command. -/

namespace Sys2Proof.Machine

/-- What a command does once it has been decoded: spec/60_exceptions.md R207, steps 2 to 5. -/
def exec (i : Instr) (s : State) : Host.Outcome State Fault Refusal :=
  match i with
  | .nop => Sys2Proof.Machine.execNop s
  | .setw data => Sys2Proof.Machine.execSetw data s
  | .setp data => Sys2Proof.Machine.execSetp data s
  | .seti data => Sys2Proof.Machine.execSeti data s
  | .start => Sys2Proof.Machine.execStart s
  | .stepw data => Sys2Proof.Machine.execStepw data s
  | .byte data => Sys2Proof.Machine.execByte data s
  | .finish => Sys2Proof.Machine.execFinish s
  | .abort => Sys2Proof.Machine.execAbort s
  | .clrerr => Sys2Proof.Machine.execClrerr s

end Sys2Proof.Machine
end

