-- ==== Sys2Proof/WellFormed.lean ====
section
/-! DEFINITION. Which 40-bit words are legal commands, written from the pseudocode of spec/30_encoding.md R77 over
the word's number OP·2^32 + DATA (R70). It is written without the decoder, so that "the decoder accepts exactly the
legal words" (R78) is a theorem to prove and not a definition. A term of Instr needs no check of its own: its
operand types admit nothing ill-formed. -/

namespace Sys2Proof

/-- OP of a word, as a number (R70). -/
def opNumber (w : CommandWord) : Nat := w.toNat / 2 ^ 32

/-- DATA of a word, as a number (R70, R71). -/
def dataNumber (w : CommandWord) : Nat := w.toNat % 2 ^ 32

/-- The word's OP is one of the 246 reserved ones (R76). -/
def hasReservedOp (w : CommandWord) : Bool := decide (0x0A ≤ opNumber w)

/-- The word names an operand-less command and its DATA is not zero (R74). -/
def hasStrayOperand (w : CommandWord) : Bool :=
  decide (opNumber w ∈ [0x00, 0x04, 0x07, 0x08, 0x09]) && decide (dataNumber w ≠ 0)

/-- The word names BYTE and DATA[31:8] is not zero (R75). -/
def hasWideByte (w : CommandWord) : Bool :=
  decide (opNumber w = 0x06) && decide (dataNumber w / 2 ^ 8 ≠ 0)

/-- R77: the word is an illegal command. -/
def isIllegal (w : CommandWord) : Bool := hasReservedOp w || hasStrayOperand w || hasWideByte w

/-- The word is a legal command. -/
def isLegal (w : CommandWord) : Bool := !isIllegal w

end Sys2Proof
end

