-- ==== Sys2Proof/Decode.lean ====
section
/-! DEFINITION. The decoder of the command port, total on 40-bit words and rejecting by name (spec/30_encoding.md
R73, R77, R78), the encoder written from the same opcode map (R70, R72), the match and mask rows of R73, and the
reading of a word as spec/opcode_table.json numbers it. -/

namespace Sys2Proof

/-- OP, bits 39..32 of a command word (R70). -/
def opField (w : CommandWord) : BitVec 8 := w.extractLsb' 32 8

/-- DATA, bits 31..0 of a command word (R70). -/
def dataField (w : CommandWord) : Word := w.extractLsb' 0 32

/-- The byte operand of BYTE, DATA[7:0] (R71). -/
def byteField (w : CommandWord) : Byte := w.extractLsb' 0 8

/-- A command word laid out from its two fields (R70). -/
def commandWord (op : BitVec 8) (data : Word) : CommandWord := op ++ data

/-- Why a word is no command. All three are the one illegal command of R77. -/
inductive IllegalWord where
  /-- OP is 0x0A or above (R76). -/
  | reservedOpcode
  /-- An operand-less command with DATA other than zero (R74). -/
  | operandNotZero
  /-- BYTE with a bit of DATA[31:8] set (R75). -/
  | byteTooWide
  deriving DecidableEq, Repr

/-- An operand-less command is the command only where DATA is zero (R74). -/
def decodeBare (w : CommandWord) (i : Instr) : Except IllegalWord Instr :=
  if dataField w = 0 then .ok i else .error .operandNotZero

/-- BYTE is the command only where DATA[31:8] is zero (R75). -/
def decodeByte (w : CommandWord) : Except IllegalWord Instr :=
  if (dataField w).extractLsb' 8 24 = 0 then .ok (.byte (byteField w)) else .error .byteTooWide

/-- The command a 40-bit word names, or why it names none (R72, R73, R77). -/
def decode (w : CommandWord) : Except IllegalWord Instr :=
  if opField w = 0x00 then decodeBare w .nop
  else if opField w = 0x01 then .ok (.setw (dataField w))
  else if opField w = 0x02 then .ok (.setp (dataField w))
  else if opField w = 0x03 then .ok (.seti (dataField w))
  else if opField w = 0x04 then decodeBare w .start
  else if opField w = 0x05 then .ok (.stepw (dataField w))
  else if opField w = 0x06 then decodeByte w
  else if opField w = 0x07 then decodeBare w .finish
  else if opField w = 0x08 then decodeBare w .abort
  else if opField w = 0x09 then decodeBare w .clrerr
  else .error .reservedOpcode

/-- OP of a command (R72). -/
def opcode : Instr → BitVec 8
  | .nop => 0x00
  | .setw _ => 0x01
  | .setp _ => 0x02
  | .seti _ => 0x03
  | .start => 0x04
  | .stepw _ => 0x05
  | .byte _ => 0x06
  | .finish => 0x07
  | .abort => 0x08
  | .clrerr => 0x09

/-- DATA of a command: its operand, zero-extended, or zero (R71, R74, R75). -/
def operand : Instr → Word
  | .nop => 0
  | .setw data => data
  | .setp data => data
  | .seti data => data
  | .start => 0
  | .stepw data => data
  | .byte data => data.setWidth 32
  | .finish => 0
  | .abort => 0
  | .clrerr => 0

/-- The word of a command (R70, R72). -/
def encode (i : Instr) : CommandWord := commandWord (opcode i) (operand i)

/-- The command's name in the opcode table (R72). -/
def mnemonic : Instr → String
  | .nop => "NOP"
  | .setw _ => "SETW"
  | .setp _ => "SETP"
  | .seti _ => "SETI"
  | .start => "START"
  | .stepw _ => "STEPW"
  | .byte _ => "BYTE"
  | .finish => "FINISH"
  | .abort => "ABORT"
  | .clrerr => "CLRERR"

/-- One row of the match and mask table of R73. -/
structure OpcodeRow where
  /-- The row's mnemonic. -/
  name : String
  /-- What the masked word equals. -/
  pattern : CommandWord
  /-- Which bits the row fixes. -/
  mask : CommandWord
  deriving DecidableEq, Repr

/-- The word fits the row (R73). -/
def OpcodeRow.fits (r : OpcodeRow) (w : CommandWord) : Bool := decide (w &&& r.mask = r.pattern)

/-- The match and mask table of R73. -/
def opcodeRows : List OpcodeRow :=
  [ ⟨"NOP", 0x0000000000, 0xFFFFFFFFFF⟩,
    ⟨"SETW", 0x0100000000, 0xFF00000000⟩,
    ⟨"SETP", 0x0200000000, 0xFF00000000⟩,
    ⟨"SETI", 0x0300000000, 0xFF00000000⟩,
    ⟨"START", 0x0400000000, 0xFFFFFFFFFF⟩,
    ⟨"STEPW", 0x0500000000, 0xFF00000000⟩,
    ⟨"BYTE", 0x0600000000, 0xFFFFFFFF00⟩,
    ⟨"FINISH", 0x0700000000, 0xFFFFFFFFFF⟩,
    ⟨"ABORT", 0x0800000000, 0xFFFFFFFFFF⟩,
    ⟨"CLRERR", 0x0900000000, 0xFFFFFFFFFF⟩ ]

/-- The command word whose low `nbits` bits are those of `w` and whose other bits are zero, numbered as the opcode
table numbers them: the 40-bit word is one unit, bit 0 its least significant bit. DEDUCED, safe (log 17). -/
def tableCommandWord (nbits w : Nat) : CommandWord := BitVec.ofNat 40 (w % 2 ^ nbits)

/-- What the decoder reads from a word of the opcode table. -/
def decodeTableWord (nbits w : Nat) : Option Instr :=
  match decode (tableCommandWord nbits w) with
  | .ok i => some i
  | .error _ => none

end Sys2Proof
end

