-- ==== Sys2Proof/Machine/HostPort.lean ====
section
/-! DEFINITION. The block's interface at transaction level: taking the host's next event, what an illegal word and a
reset do, what the block does while the host presents nothing, and the output ports (spec/10_state.md R29 to R31,
spec/30_encoding.md R77, spec/70_reset_and_hazards.md R240). -/

namespace Sys2Proof.Machine

/-- The event the host presents next, if it presents one (R29, R31). -/
def nextEvent (s : State) : Option HostEvent := s.port.head?

/-- The machine once that event has been taken: an event is performed exactly once (R31). -/
def State.takeEvent (s : State) : State := { s with port := s.port.tail }

/-- The host presents one more event, before all those still to come. -/
def State.present (s : State) (e : HostEvent) : State := { s with port := e :: s.port }

/-- The host presents a sequence of commands, after the events still to come. -/
def State.issue (s : State) (is : List Instr) : State :=
  { s with port := s.port ++ is.map (fun i => .command (encode i)) }

/-- Between commands the block holds its state (spec/60_exceptions.md R216). DEDUCED, safe (log 2). -/
def performIdle (s : State) : Host.Outcome State Fault Refusal := unchanged s

/-- An illegal word, whatever makes it so, raises ERR_ILL and nothing else (R77). -/
def performIllegal (_why : IllegalWord) (s : State) : Host.Outcome State Fault Refusal := raiseError .ill s

/-- The reset input: every register takes its reset value; what the spec leaves UNSPEC takes the next draw; the
host's later events are the host's (R240, R242; log 3, log 6). -/
def performReset (s : State) : Host.Outcome State Fault Refusal :=
  .next { s with block := Block.afterReset s.draws, draws := s.draws + 1 }

/-- The output ports (R30). -/
def Block.ports (b : Block) : Ports :=
  { crcOut := b.crc, statusOut := b.status.toBits, widthOut := b.width, polyOut := b.poly, initOut := b.init }

/-- The checksum a host may take: CRC_OUT, only while VALID = 1 and ERR = 0 (spec/41_chainer.md R152,
spec/70_reset_and_hazards.md R243). -/
def Block.checksum (b : Block) : Option Word :=
  if b.status.valid && !b.status.errorSet then some b.crc else none

end Sys2Proof.Machine
end

