-- ==== Sys2Proof/Machine/Step.lean ====
section
/-! DEFINITION. One step of the machine: the host's next event, performed as one atomic transition
(spec/00_scope.md R12, spec/20_memory.md R59 to R61). -/

namespace Sys2Proof.Machine

/-- Takes the host's next event and performs it. The illegal-command check comes before every other check
(spec/60_exceptions.md R207, step 1). -/
def step (s : State) : Host.Outcome State Fault Refusal :=
  match nextEvent s with
  | none => performIdle s
  | some .reset => performReset s.takeEvent
  | some (.command w) =>
    match decode w with
    | .ok i => exec i s.takeEvent
    | .error why => performIllegal why s.takeEvent

/-- The machine when the host presents, as its very next event, the command word whose low `nbits` bits are those of
`w` (log 1). -/
def State.withFetchWord (s : State) (nbits w : Nat) : State := s.present (.command (tableCommandWord nbits w))

end Sys2Proof.Machine
end

