-- ==== Sys2Proof/Machine/Assembler.lean ====
section
/-! DEFINITION. The assembler of spec/30_encoding.md: the syntax of one line (R79) and the expansions of the
pseudo-instructions (R80). The map from characters to numbers is the host's and is the argument `code` throughout
(R136, decision D16). What R79 leaves open of the lexical form is a DESIGN CHOICE, unsafe (log 10). -/

namespace Sys2Proof.Machine

/-- The expansion of a pseudo-instruction (R80). -/
def expandPseudo (code : Char → Word) : Pseudo → List Instr
  | .config w p i => [.setw w, .setp p, .seti i]
  | .crcstep x => [.start, .stepw x, .finish]
  | .text strings => .start :: strings.flatten.map (fun c => .stepw (code c)) ++ [.finish]
  | .file bytes => .start :: bytes.map .byte ++ [.finish]

/-- Why a line is an assembly error and no encoding (R79). -/
inductive AsmError where
  /-- A quote that is not closed, or stands inside a word. -/
  | badQuote
  /-- The first word of the line is no mnemonic. -/
  | unknownMnemonic
  /-- The operands are not as many as the mnemonic takes, or not separated by commas. -/
  | badOperandList
  /-- An operand is no number, or is of a kind the mnemonic does not take. -/
  | badOperand
  /-- More than 32 bits, or more than 8 bits for BYTE. -/
  | operandTooWide
  deriving DecidableEq, Repr

/-- The words of a line. -/
inductive Token where
  /-- A mnemonic or a number. -/
  | word (cs : List Char)
  /-- A character literal. -/
  | char (c : Char)
  /-- A string of TEXT. -/
  | str (cs : List Char)
  /-- The separator of operands. -/
  | comma
  deriving DecidableEq, Repr

/-- Where the reading of a line stands; a token's characters are held last first. -/
inductive LexState where
  /-- Between tokens. -/
  | gap
  /-- Inside a word. -/
  | inWord (cs : List Char)
  /-- After the opening quote of a character literal. -/
  | quoteOpen
  /-- After the character of a character literal. -/
  | quoteChar (c : Char)
  /-- Inside a string. -/
  | inString (cs : List Char)
  deriving DecidableEq, Repr

/-- The single quote. -/
def singleQuote : Char := Char.ofNat 39

/-- The double quote. -/
def doubleQuote : Char := Char.ofNat 34

/-- A space or a tab. -/
def isBlank (c : Char) : Bool := c == ' ' || c == Char.ofNat 9

/-- The tokens of a line; a `;` outside quotes starts a comment that runs to the end of the line (R79). -/
def lex : LexState → List Char → Except AsmError (List Token)
  | .gap, [] => .ok []
  | .inWord cs, [] => .ok [.word cs.reverse]
  | .quoteOpen, [] => .error .badQuote
  | .quoteChar _, [] => .error .badQuote
  | .inString _, [] => .error .badQuote
  | .gap, c :: rest =>
    if isBlank c then lex .gap rest
    else if c = ';' then .ok []
    else if c = ',' then (Token.comma :: ·) <$> lex .gap rest
    else if c = singleQuote then lex .quoteOpen rest
    else if c = doubleQuote then lex (.inString []) rest
    else lex (.inWord [c]) rest
  | .inWord cs, c :: rest =>
    if isBlank c then (Token.word cs.reverse :: ·) <$> lex .gap rest
    else if c = ';' then .ok [.word cs.reverse]
    else if c = ',' then ([Token.word cs.reverse, Token.comma] ++ ·) <$> lex .gap rest
    else if c = singleQuote ∨ c = doubleQuote then .error .badQuote
    else lex (.inWord (c :: cs)) rest
  | .quoteOpen, c :: rest => lex (.quoteChar c) rest
  | .quoteChar c, d :: rest =>
    if d = singleQuote then (Token.char c :: ·) <$> lex .gap rest else .error .badQuote
  | .inString cs, c :: rest =>
    if c = doubleQuote then (Token.str cs.reverse :: ·) <$> lex .gap rest else lex (.inString (c :: cs)) rest

/-- The value of a digit in a base up to 16. -/
def digitValue (base : Nat) (c : Char) : Option Nat :=
  let v :=
    if '0' ≤ c ∧ c ≤ '9' then some (c.toNat - '0'.toNat)
    else if 'a' ≤ c ∧ c ≤ 'f' then some (c.toNat - 'a'.toNat + 10)
    else if 'A' ≤ c ∧ c ≤ 'F' then some (c.toNat - 'A'.toNat + 10)
    else none
  v.filter (fun d => decide (d < base))

/-- The number a sequence of digits denotes, after the digits already read. -/
def digitsValue (base : Nat) : Nat → List Char → Option Nat
  | acc, [] => some acc
  | acc, c :: rest =>
    match digitValue base c with
    | some d => digitsValue base (acc * base + d) rest
    | none => none

/-- A decimal number or a `0x` hexadecimal number (R79). -/
def parseNumber : List Char → Option Nat
  | [] => none
  | '0' :: 'x' :: [] => none
  | '0' :: 'x' :: d :: ds => digitsValue 16 0 (d :: ds)
  | ds => digitsValue 10 0 ds

/-- The words that may begin a line (R72, R80). -/
inductive Keyword where
  | nop | setw | setp | seti | start | stepw | byte | finish | abort | clrerr
  | config | crcstep | text | file
  deriving DecidableEq, Repr

/-- Mnemonics are case-insensitive (R79). -/
def keywordOf (cs : List Char) : Option Keyword :=
  let m := cs.map Char.toUpper
  if m = ['N', 'O', 'P'] then some .nop
  else if m = ['S', 'E', 'T', 'W'] then some .setw
  else if m = ['S', 'E', 'T', 'P'] then some .setp
  else if m = ['S', 'E', 'T', 'I'] then some .seti
  else if m = ['S', 'T', 'A', 'R', 'T'] then some .start
  else if m = ['S', 'T', 'E', 'P', 'W'] then some .stepw
  else if m = ['B', 'Y', 'T', 'E'] then some .byte
  else if m = ['F', 'I', 'N', 'I', 'S', 'H'] then some .finish
  else if m = ['A', 'B', 'O', 'R', 'T'] then some .abort
  else if m = ['C', 'L', 'R', 'E', 'R', 'R'] then some .clrerr
  else if m = ['C', 'O', 'N', 'F', 'I', 'G'] then some .config
  else if m = ['C', 'R', 'C', 'S', 'T', 'E', 'P'] then some .crcstep
  else if m = ['T', 'E', 'X', 'T'] then some .text
  else if m = ['F', 'I', 'L', 'E'] then some .file
  else none

/-- The operands after the first, each behind a comma. -/
def moreOperands : List Token → Except AsmError (List Token)
  | [] => .ok []
  | .comma :: .comma :: _ => .error .badOperandList
  | .comma :: t :: rest => (t :: ·) <$> moreOperands rest
  | _ => .error .badOperandList

/-- The operands of a line, separated by commas (R80). -/
def operandList : List Token → Except AsmError (List Token)
  | [] => .ok []
  | .comma :: _ => .error .badOperandList
  | t :: rest => (t :: ·) <$> moreOperands rest

/-- The number a numeric operand denotes (R79). -/
def numberOf : Token → Except AsmError Nat
  | .word cs =>
    match parseNumber cs with
    | some n => .ok n
    | none => .error .badOperand
  | _ => .error .badOperand

/-- A number, or, for STEPW and BYTE only, a character's code (R79, R136). -/
def numberOrCode (code : Char → Word) : Token → Except AsmError Nat
  | .char c => .ok (code c).toNat
  | t => numberOf t

/-- An operand of 32 bits; a wider one is an assembly error (R79). -/
def wordOperand (n : Nat) : Except AsmError Word :=
  if n < 2 ^ 32 then .ok (BitVec.ofNat 32 n) else .error .operandTooWide

/-- An operand of 8 bits; a wider one is an assembly error (R79). -/
def byteOperand (n : Nat) : Except AsmError Byte :=
  if n < 2 ^ 8 then .ok (BitVec.ofNat 8 n) else .error .operandTooWide

/-- The characters of a string operand (R80). -/
def stringOf : Token → Except AsmError (List Char)
  | .str cs => .ok cs
  | _ => .error .badOperand

/-- Reads each operand of a list. -/
def readEach {α : Type} (f : Token → Except AsmError α) : List Token → Except AsmError (List α)
  | [] => .ok []
  | t :: rest => do
    let a ← f t
    let as ← readEach f rest
    return a :: as

/-- A 32-bit numeric operand. -/
def readWord (t : Token) : Except AsmError Word := do wordOperand (← numberOf t)

/-- The operand of STEPW. -/
def readTextWord (code : Char → Word) (t : Token) : Except AsmError Word := do wordOperand (← numberOrCode code t)

/-- The operand of BYTE. -/
def readByte (code : Char → Word) (t : Token) : Except AsmError Byte := do byteOperand (← numberOrCode code t)

/-- The commands of a line that begins with a keyword and goes on with these operands (R79, R80). -/
def assembleKeyword (code : Char → Word) : Keyword → List Token → Except AsmError (List Instr)
  | .nop, [] => .ok [.nop]
  | .setw, [t] => do return [.setw (← readWord t)]
  | .setp, [t] => do return [.setp (← readWord t)]
  | .seti, [t] => do return [.seti (← readWord t)]
  | .start, [] => .ok [.start]
  | .stepw, [t] => do return [.stepw (← readTextWord code t)]
  | .byte, [t] => do return [.byte (← readByte code t)]
  | .finish, [] => .ok [.finish]
  | .abort, [] => .ok [.abort]
  | .clrerr, [] => .ok [.clrerr]
  | .config, [w, p, i] => do
    return expandPseudo code (.config (← readWord w) (← readWord p) (← readWord i))
  | .crcstep, [t] => do return expandPseudo code (.crcstep (← readTextWord code t))
  | .text, ts => do return expandPseudo code (.text (← readEach stringOf ts))
  | .file, ts => do return expandPseudo code (.file (← readEach (readByte code) ts))
  | _, _ => .error .badOperandList

/-- The commands of one line: none for a blank line or a comment, one for a mnemonic, the expansion for a
pseudo-instruction (R79, R80). -/
def assembleLine (code : Char → Word) (line : List Char) : Except AsmError (List Instr) := do
  match ← lex .gap line with
  | [] => return []
  | .word cs :: rest =>
    match keywordOf cs with
    | some k => assembleKeyword code k (← operandList rest)
    | none => .error .unknownMnemonic
  | _ => .error .unknownMnemonic

/-- The command words of one line (R70, R79). -/
def assembleWords (code : Char → Word) (line : List Char) : Except AsmError (List CommandWord) := do
  return (← assembleLine code line).map encode

end Sys2Proof.Machine
end

