-- ==== Sys2Proof/Machine/ChainReference.lean ====
section
/-! DEFINITION. Text and binary chaining as the source defines them, the pseudocode of spec/41_chainer.md R132 and
R140. No command runs them: they are what the claims about the chain commands compare the block with. -/

namespace Sys2Proof.Machine

/-- Folding a sequence of words from a running CRC (R132, R134). -/
def chainWords (words : List Word) (poly init : Word) (w : Nat) : Word :=
  words.foldl (fun r word => crcStep word poly r w) init

/-- chain_text: the strings in order, their characters in order, each through the host's map `code` (R132, R136). -/
def chainText (code : Char → Word) (data : List (List Char)) (poly init : Word) (w : Nat) : Word :=
  chainWords (data.flatten.map code) poly init w

/-- s[k], and 0x00 past the end of the stream (R140). -/
def streamByte (stream : List Byte) (k : Nat) : Byte := stream.getD k 0

/-- The word of group g of a stream (R140, spec/20_memory.md R52, R53, R55). -/
def streamWord (stream : List Byte) (g : Nat) : Word :=
  groupWord (streamByte stream (4 * g)) (streamByte stream (4 * g + 1)) (streamByte stream (4 * g + 2))
    (streamByte stream (4 * g + 3))

/-- chain_file: the groups g = 0 .. ceil(n / 4) - 1 of the stream, folded in order (R140). -/
def chainFile (stream : List Byte) (poly init : Word) (w : Nat) : Word :=
  chainWords ((List.range ((stream.length + 3) / 4)).map (streamWord stream)) poly init w

end Sys2Proof.Machine
end

