-- ==== Sys2Proof/Machine/StepReference.lean ====
section
/-! DEFINITION. crc_step as spec/40_step_engine.md R101 writes it, on unsigned numbers with the unbounded left shift
of spec/00_scope.md R11. No command runs it: it is what the claim about the 32-bit engine compares it with. -/

namespace Sys2Proof.Machine

/-- mask(w) = 2^w - 1 (R11, R102). -/
def maskNat (w : Nat) : Nat := 2 ^ w - 1

/-- One iteration on unbounded numbers (R104). -/
def shift1Nat (r poly w : Nat) : Nat :=
  if r.testBit (w - 1) then ((r <<< 1) ^^^ poly) &&& maskNat w else (r <<< 1) &&& maskNat w

/-- SR_k on unbounded numbers (R101). -/
def shifterNat (word poly seed w : Nat) : Nat → Nat
  | 0 => (seed ^^^ word) &&& maskNat w
  | k + 1 => shift1Nat (shifterNat word poly seed w k) poly w

/-- crc_step on unbounded numbers (R101). -/
def crcStepNat (word poly seed w : Nat) : Nat := shifterNat word poly seed w w

end Sys2Proof.Machine
end

