-- ==== Sys2Proof/Safety.lean ====
section
/-! DEFINITION. The terms the claims are made in: the invariant of the block, the causes of the four errors, what two
blocks that differ only in UNSPEC values have in common, the state from which a chain can be run, and the text of an
assembler line. -/

namespace Sys2Proof.Machine

/-- What holds of the block in every state a run reaches: WIDTH is legal (spec/10_state.md R21); under an error no
chain is open, no result is valid and no byte is buffered (spec/60_exceptions.md R204); a finished result and an open
chain exclude each other, and bytes are buffered only inside a chain (R26, R27). -/
abbrev Block.Inv (b : Block) : Prop :=
  (1 ≤ b.width.toNat ∧ b.width.toNat ≤ 32) ∧
  (b.status.errorSet = true → b.status.active = false ∧ b.status.valid = false ∧ b.status.bcnt = 0) ∧
  (b.status.valid = true → b.status.active = false) ∧
  (b.status.bcnt ≠ 0 → b.status.active = true)

/-- The invariant of the machine is that of its block. -/
abbrev State.Inv (s : State) : Prop := s.block.Inv

/-- The causes of ERR_SEQ, the table of spec/60_exceptions.md R205. -/
def sequenceError (i : Instr) (t : Status) : Bool :=
  match i with
  | .nop => false
  | .setw _ => t.active
  | .setp _ => t.active
  | .seti _ => t.active
  | .start => t.active && !t.errorSet
  | .stepw _ => !t.active || decide (t.bcnt ≠ 0)
  | .byte _ => !t.active
  | .finish => !t.active
  | .abort => false
  | .clrerr => false

/-- The error lock keeps the command from having any effect: START while ERR ≠ 0 (R206; R207, step 2). -/
def lockedOut (i : Instr) (t : Status) : Bool := decide (i = .start) && t.errorSet

/-- A SETW whose operand is no width (R173; R207, step 4). -/
def badWidth : Instr → Bool
  | .setw data => !isWidth data
  | _ => false

/-- The command's own effect on the block, what R207, step 5 calls performing it, when no check decides before. -/
def ownEffect (i : Instr) (b : Block) : Block :=
  match i with
  | .nop => b
  | .setw data => b.setWidth (widthField data)
  | .setp data => b.setPoly data
  | .seti data => b.setInit data
  | .start => b.openChain
  | .stepw data => b.fold data
  | .byte data => b.feedByte data
  | .finish => b.closeChain
  | .abort => b.raise .io
  | .clrerr => b.clearErrors

/-- What the decoder reads from the command word the host presents next, if it presents one. -/
def State.pending (s : State) : Option (Except IllegalWord Instr) :=
  match s.port with
  | .command w :: _ => some (decode w)
  | _ => none

/-- The causes of the four errors in the next event, the table of spec/60_exceptions.md R200. -/
def errorCause (e : ErrorKind) (s : State) : Bool :=
  match s.pending with
  | none => false
  | some (.error _) => decide (e = .ill)
  | some (.ok i) =>
    match e with
    | .cfg => !s.block.status.active && badWidth i
    | .seq => sequenceError i s.block.status
    | .io => decide (i = .abort)
    | .ill => false

/-- A word that raises ERR_ILL and does nothing else, whenever the host presents it (R77). -/
def RaisesIllegal (w : CommandWord) : Prop :=
  ∀ (s : State) (rest : List HostEvent), s.port = .command w :: rest →
    step s = raiseError .ill { s with port := rest }

/-- The events of a sequence of commands. -/
def commandEvents (is : List Instr) : List HostEvent := is.map (fun i => .command (encode i))

/-- A chain can be opened: no error is recorded and no chain is open (spec/41_chainer.md R131). -/
abbrev Block.Idle (b : Block) : Prop := b.status.errorSet = false ∧ b.status.active = false

/-- The block as a host can know it (spec/70_reset_and_hazards.md R242, spec/10_state.md R27): everything but CRC
outside a chain and outside a valid result, and the bytes that are not buffered. -/
def Block.SameKnown (b c : Block) : Prop :=
  b.width = c.width ∧ b.poly = c.poly ∧ b.init = c.init ∧ b.status = c.status ∧
  (b.status.active = true ∨ b.status.valid = true → b.crc = c.crc) ∧
  (b.status.bcnt ≠ 0 → b.b0 = c.b0) ∧
  (b.status.bcnt = 2 ∨ b.status.bcnt = 3 → b.b1 = c.b1) ∧
  (b.status.bcnt = 3 → b.b2 = c.b2)

/-- Two machines the host cannot tell apart by a checksum: the same known block and the same events to come. -/
def State.SameKnown (s t : State) : Prop := s.block.SameKnown t.block ∧ s.port = t.port

/-! ## The text of an assembler line -/

/-- Spaces and tabs, which separate the words of a line (log 10). -/
def IsBlanks (text : List Char) : Prop := ∀ c ∈ text, c = ' ' ∨ c = Char.ofNat 9

/-- What may follow the last operand: nothing, or a comment that runs to the end of the line (spec/30_encoding.md
R79), after any blanks. -/
def IsLineEnd (text : List Char) : Prop :=
  ∃ blanks comment, text = blanks ++ comment ∧ IsBlanks blanks ∧ (comment = [] ∨ ∃ remark, comment = ';' :: remark)

/-- The characters of these digits, most significant first, a hexadecimal letter in either case (log 10). -/
def AreDigits (base : Nat) (text : List Char) (digits : List Nat) : Prop :=
  List.Forall₂ (fun c d => d < base ∧ (c = d.digitChar ∨ c = d.digitChar.toUpper)) text digits

/-- A decimal number or a `0x` hexadecimal number that denotes n (R79). -/
def IsNumberText (text : List Char) (n : Nat) : Prop :=
  ∃ digits : List Nat, digits ≠ [] ∧
    ((AreDigits 10 text digits ∧ n = Nat.ofDigits 10 digits.reverse) ∨
      ∃ hex, text = '0' :: 'x' :: hex ∧ AreDigits 16 hex digits ∧ n = Nat.ofDigits 16 digits.reverse)

/-- A character literal, which stands for the character's code under the host's map (R79, R136). -/
def IsCharText (code : Char → Word) (text : List Char) (n : Nat) : Prop :=
  ∃ c, text = [singleQuote, c, singleQuote] ∧ n = (code c).toNat

/-- The name in any case (R79). -/
abbrev IsNameText (text : List Char) (name : String) : Prop := text.map Char.toUpper = name.toList

/-- Operands one after the other, a comma and a space between them (R80). -/
def operandsText (texts : List (List Char)) : List Char := [',', ' '].intercalate texts

end Sys2Proof.Machine
end

