-- ==== Sys2Proof/Certificates/Slice0/Obligations.lean ====
section
/-! DEFINITION. The statements for the provers, by the numbered rules of spec/. A docstring says which rule or which
sentence of the spec its statement formalises; where a statement rests on an inference of the spec, or on a log entry
of this model, it says so. -/

open Sys2Proof Sys2Proof.Machine

/-! ## Encoding -/

/-- spec/30_encoding.md R70 to R78: no bit of a command is dropped; every command is what its word decodes to. -/
def Obligations.DecodeOfEncodeIsTheCommand : Prop :=
  ∀ i : Instr, decode (encode i) = .ok i

/-- spec/30_encoding.md R78, "no word decodes to two commands", the other way round: a word that decodes is the word
of the command it decodes to. -/
def Obligations.DecodedWordIsItsEncoding : Prop :=
  ∀ (w : CommandWord) (i : Instr), decode w = .ok i → encode i = w

/-- R73: a word is read as a row's command exactly when it matches the row under its mask, with the word's own OP and
operand; the rows are disjoint; a word that matches no row is illegal. -/
def Obligations.DecodeFollowsTheMatchAndMaskTable : Prop :=
  opcodeRows.map OpcodeRow.name =
      ["NOP", "SETW", "SETP", "SETI", "START", "STEPW", "BYTE", "FINISH", "ABORT", "CLRERR"] ∧
  ∀ w : CommandWord,
    (∀ row ∈ opcodeRows, row.fits w = true ↔
      ∃ i, decode w = .ok i ∧ mnemonic i = row.name ∧ opcode i = opField w ∧ operand i = dataField w) ∧
    opcodeRows.Pairwise (fun r q => ¬(r.fits w = true ∧ q.fits w = true)) ∧
    ((∀ row ∈ opcodeRows, row.fits w = false) → ∃ why, decode w = .error why ∧ RaisesIllegal w)

/-- R72: the opcode map, row by row, and every other OP reserved. -/
def Obligations.OpcodeMapDecodes : Prop :=
  decode 0x0000000000 = .ok .nop ∧
  (∀ d : Word, decode (commandWord 0x01 d) = .ok (.setw d)) ∧
  (∀ d : Word, decode (commandWord 0x02 d) = .ok (.setp d)) ∧
  (∀ d : Word, decode (commandWord 0x03 d) = .ok (.seti d)) ∧
  decode 0x0400000000 = .ok .start ∧
  (∀ d : Word, decode (commandWord 0x05 d) = .ok (.stepw d)) ∧
  (∀ v : Byte, decode (commandWord 0x06 (v.setWidth 32)) = .ok (.byte v)) ∧
  decode 0x0700000000 = .ok .finish ∧
  decode 0x0800000000 = .ok .abort ∧
  decode 0x0900000000 = .ok .clrerr ∧
  (∀ (op : BitVec 8) (d : Word), 0x0A ≤ op.toNat → decode (commandWord op d) = .error .reservedOpcode)

/-- Words of spec/95_test_vectors.md section 5 and section 4, written out from R70: the decoder reads each as the
command it stands for there. -/
def Obligations.SampleWordsDecode : Prop :=
  decode 0x0100000008 = .ok (.setw 8) ∧
  decode 0x02000000CB = .ok (.setp 0xCB) ∧
  decode 0x030000FFFF = .ok (.seti 0xFFFF) ∧
  decode 0x05000000C1 = .ok (.stepw 0xC1) ∧
  decode 0x0600000035 = .ok (.byte 0x35) ∧
  decode 0x0700000000 = .ok .finish ∧
  decode 0x0A00000000 = .error .reservedOpcode ∧
  decode 0x0400000001 = .error .operandNotZero ∧
  decode 0x0600000100 = .error .byteTooWide

/-- R74, R75, R77: exactly the words of R77's pseudocode are illegal, and one of them sets ERR_ILL, clears ACTIVE,
VALID and BCNT, and does nothing else, whatever the state. -/
def Obligations.IllegalWordsRaiseErrIllAndNothingElse : Prop :=
  ∀ w : CommandWord,
    ((0x0A ≤ w.toNat / 2 ^ 32 ∨
        (w.toNat / 2 ^ 32 ∈ [0x00, 0x04, 0x07, 0x08, 0x09] ∧ w.toNat % 2 ^ 32 ≠ 0) ∨
        (w.toNat / 2 ^ 32 = 0x06 ∧ w.toNat % 2 ^ 32 / 2 ^ 8 ≠ 0)) ↔ ∃ why, decode w = .error why) ∧
    ∀ (why : IllegalWord) (s : State) (rest : List HostEvent), decode w = .error why →
      s.port = .command w :: rest →
      step s = .next { s with
        port := rest
        block := { s.block with
          status := { s.block.status with errIll := true, active := false, valid := false, bcnt := 0 } } }

/-! ## The step -/

/-- spec/00_scope.md R12 and spec/10_state.md R31: when the host presents a word that decodes to a command, the step
takes that word and is exec of the command. That the words to come are a list in State is log 1. -/
def Obligations.StepRunsTheDecodedCommand : Prop :=
  ∀ (s : State) (w : CommandWord) (rest : List HostEvent) (i : Instr),
    s.port = .command w :: rest → decode w = .ok i → step s = exec i { s with port := rest }

/-- spec/60_exceptions.md R216, "Between commands it holds its state unchanged" (log 2). -/
def Obligations.StepWithNoEventHoldsTheState : Prop :=
  ∀ s : State, s.port = [] → step s = .next s

/-- spec/10_state.md R33: the reset values, at power-on and after a reset event; CRC and B0..B2 are left to any
draw. -/
def Obligations.ResetGivesTheResetValues : Prop :=
  (State.reset.block.width = 32 ∧ State.reset.block.poly = 0x04C11DB7 ∧ State.reset.block.init = 0xFFFFFFFF ∧
    State.reset.block.status.toBits = 0x00) ∧
  ∀ (s : State) (rest : List HostEvent), s.port = .reset :: rest →
    ∃ t, step s = .next t ∧ t.block.width = 32 ∧ t.block.poly = 0x04C11DB7 ∧ t.block.init = 0xFFFFFFFF ∧
      t.block.status.toBits = 0x00 ∧ t.block.status = Status.clear

/-- spec/10_state.md R31, "a command is never partially performed and never performed twice", and spec/60_exceptions.md
R208: no step stops the machine. The model's choices in it: the host's events are a list, of which a step takes the
first (log 1); with no event presented a step takes none (log 2); the events after a reset stay (log 3); only a reset
advances the counter of draws (log 6). -/
def Obligations.EveryStepGoesOnAndTakesAtMostOneEvent : Prop :=
  ∀ s : State, ∃ t, step s = .next t ∧ t.port = s.port.tail ∧
    t.draws = (if s.port.head? = some .reset then s.draws + 1 else s.draws)

/-! ## The commands -/

/-- R170: NOP changes nothing in any state; only the word 0x00_00000000 is NOP, with another DATA it is illegal. -/
def Obligations.NopDoesNothing : Prop :=
  decode 0x0000000000 = .ok .nop ∧
  (∀ d : Word, d ≠ 0 → RaisesIllegal (commandWord 0x00 d)) ∧
  ∀ s : State, exec .nop s = .next s

/-- R173: SETW inside a chain raises ERR_SEQ; outside, a width in 1..32 is written and any other operand, compared as
a 32-bit unsigned number, raises ERR_CFG. -/
def Obligations.SetwWritesALegalWidth : Prop :=
  ∀ (d : Word) (s : State),
    decode (commandWord 0x01 d) = .ok (.setw d) ∧
    (s.block.status.active = false → 1 ≤ d.toNat → d.toNat ≤ 32 →
      exec (.setw d) s = .next { s with block := { s.block with width := d.extractLsb' 0 6 } } ∧
        (d.extractLsb' 0 6).toNat = d.toNat) ∧
    (s.block.status.active = false → (d.toNat < 1 ∨ 32 < d.toNat) → exec (.setw d) s = raiseError .cfg s) ∧
    (s.block.status.active = true → exec (.setw d) s = raiseError .seq s)

/-- R175: SETP stores its operand unmasked outside a chain and raises ERR_SEQ inside one. -/
def Obligations.SetpWritesThePolynomial : Prop :=
  ∀ (d : Word) (s : State),
    decode (commandWord 0x02 d) = .ok (.setp d) ∧
    (s.block.status.active = false →
      exec (.setp d) s = .next { s with block := { s.block with poly := d } }) ∧
    (s.block.status.active = true → exec (.setp d) s = raiseError .seq s)

/-- R176: SETI stores its operand unmasked outside a chain, without touching CRC, and raises ERR_SEQ inside one. -/
def Obligations.SetiWritesTheInitialValue : Prop :=
  ∀ (d : Word) (s : State),
    decode (commandWord 0x03 d) = .ok (.seti d) ∧
    (s.block.status.active = false →
      exec (.seti d) s = .next { s with block := { s.block with init := d } }) ∧
    (s.block.status.active = true → exec (.seti d) s = raiseError .seq s)

/-- R131: START copies INIT unmasked into CRC and opens a chain; inside a chain it raises ERR_SEQ; under the error
lock it does nothing; with DATA other than zero it is illegal. That START leaves B0..B2, which R27 calls UNSPEC then, is
the model's inference, log 7. -/
def Obligations.StartOpensAChain : Prop :=
  decode 0x0400000000 = .ok .start ∧
  (∀ d : Word, d ≠ 0 → RaisesIllegal (commandWord 0x04 d)) ∧
  ∀ s : State,
    (s.block.status.errorSet = false → s.block.status.active = false →
      exec .start s = .next { s with block := { s.block with
        crc := s.block.init
        status := { s.block.status with active := true, valid := false, bcnt := 0 } } }) ∧
    (s.block.status.errorSet = false → s.block.status.active = true → exec .start s = raiseError .seq s) ∧
    (s.block.status.errorSet = true → exec .start s = .next s)

/-- R135: STEPW folds its whole operand into CRC and leaves STATUS; with no chain open or a partly filled group it
raises ERR_SEQ. -/
def Obligations.StepwFoldsItsWord : Prop :=
  ∀ (d : Word) (s : State),
    decode (commandWord 0x05 d) = .ok (.stepw d) ∧
    (s.block.status.active = true → s.block.status.bcnt = 0 →
      exec (.stepw d) s = .next { s with block := { s.block with
        crc := crcStep d s.block.poly s.block.crc s.block.width.toNat } }) ∧
    (s.block.status.active = false ∨ s.block.status.bcnt ≠ 0 → exec (.stepw d) s = raiseError .seq s)

/-- R141: the first three bytes of a group are buffered and counted, the fourth folds the little-endian group; with no
chain open BYTE raises ERR_SEQ; with a bit of DATA[31:8] set the word is illegal. That the fourth byte leaves B0..B2 is
the model's inference, log 7. -/
def Obligations.ByteFeedsTheWordSplitter : Prop :=
  (∀ d : Word, 2 ^ 8 ≤ d.toNat → RaisesIllegal (commandWord 0x06 d)) ∧
  ∀ (v : Byte) (s : State),
    decode (commandWord 0x06 (v.setWidth 32)) = .ok (.byte v) ∧
    (s.block.status.active = true → s.block.status.bcnt = 0 →
      exec (.byte v) s = .next { s with block := { s.block with
        b0 := v, status := { s.block.status with bcnt := 1 } } }) ∧
    (s.block.status.active = true → s.block.status.bcnt = 1 →
      exec (.byte v) s = .next { s with block := { s.block with
        b1 := v, status := { s.block.status with bcnt := 2 } } }) ∧
    (s.block.status.active = true → s.block.status.bcnt = 2 →
      exec (.byte v) s = .next { s with block := { s.block with
        b2 := v, status := { s.block.status with bcnt := 3 } } }) ∧
    (s.block.status.active = true → s.block.status.bcnt = 3 →
      exec (.byte v) s = .next { s with block := { s.block with
        crc := crcStep
          ((v.setWidth 32 <<< 24) ||| (s.block.b2.setWidth 32 <<< 16) ||| (s.block.b1.setWidth 32 <<< 8) |||
            s.block.b0.setWidth 32) s.block.poly s.block.crc s.block.width.toNat
        status := { s.block.status with bcnt := 0 } } }) ∧
    (s.block.status.active = false → exec (.byte v) s = raiseError .seq s)

/-- R151: FINISH folds the zero-padded partial group if there is one and closes the chain; with no chain open it raises
ERR_SEQ; with DATA other than zero it is illegal. That FINISH leaves B0..B2, which R27 calls UNSPEC then, is the model's
inference, log 7. -/
def Obligations.FinishClosesTheChain : Prop :=
  decode 0x0700000000 = .ok .finish ∧
  (∀ d : Word, d ≠ 0 → RaisesIllegal (commandWord 0x07 d)) ∧
  ∀ s : State,
    (s.block.status.active = true → s.block.status.bcnt = 0 →
      exec .finish s = .next { s with block := { s.block with
        status := { s.block.status with active := false, valid := true, bcnt := 0 } } }) ∧
    (s.block.status.active = true → s.block.status.bcnt = 1 →
      exec .finish s = .next { s with block := { s.block with
        crc := crcStep (s.block.b0.setWidth 32) s.block.poly s.block.crc s.block.width.toNat
        status := { s.block.status with active := false, valid := true, bcnt := 0 } } }) ∧
    (s.block.status.active = true → s.block.status.bcnt = 2 →
      exec .finish s = .next { s with block := { s.block with
        crc := crcStep ((s.block.b1.setWidth 32 <<< 8) ||| s.block.b0.setWidth 32) s.block.poly s.block.crc
          s.block.width.toNat
        status := { s.block.status with active := false, valid := true, bcnt := 0 } } }) ∧
    (s.block.status.active = true → s.block.status.bcnt = 3 →
      exec .finish s = .next { s with block := { s.block with
        crc := crcStep
          ((s.block.b2.setWidth 32 <<< 16) ||| (s.block.b1.setWidth 32 <<< 8) ||| s.block.b0.setWidth 32)
          s.block.poly s.block.crc s.block.width.toNat
        status := { s.block.status with active := false, valid := true, bcnt := 0 } } }) ∧
    (s.block.status.active = false → exec .finish s = raiseError .seq s)

/-- R178: ABORT sets ERR_IO and clears ACTIVE, VALID and BCNT in every state and leaves the rest; with DATA other than
zero it is illegal. -/
def Obligations.AbortReportsAnIoError : Prop :=
  decode 0x0800000000 = .ok .abort ∧
  (∀ d : Word, d ≠ 0 → RaisesIllegal (commandWord 0x08 d)) ∧
  ∀ s : State, exec .abort s = .next { s with block := { s.block with
    status := { s.block.status with errIo := true, active := false, valid := false, bcnt := 0 } } }

/-- R181: CLRERR clears the four error bits in every state and leaves the rest; with DATA other than zero it is illegal
and clears nothing. -/
def Obligations.ClrerrClearsTheErrorBits : Prop :=
  decode 0x0900000000 = .ok .clrerr ∧
  (∀ d : Word, d ≠ 0 → RaisesIllegal (commandWord 0x09 d)) ∧
  ∀ s : State, exec .clrerr s = .next { s with block := { s.block with
    status := { s.block.status with errCfg := false, errSeq := false, errIo := false, errIll := false } } }

/-! ## Errors -/

/-- R203: what raising each error writes, and that it writes nothing else. -/
def Obligations.RaiseSetsItsBitAndEndsTheChain : Prop :=
  ∀ s : State,
    raiseError .cfg s = .next { s with block := { s.block with
      status := { s.block.status with errCfg := true, active := false, valid := false, bcnt := 0 } } } ∧
    raiseError .seq s = .next { s with block := { s.block with
      status := { s.block.status with errSeq := true, active := false, valid := false, bcnt := 0 } } } ∧
    raiseError .io s = .next { s with block := { s.block with
      status := { s.block.status with errIo := true, active := false, valid := false, bcnt := 0 } } } ∧
    raiseError .ill s = .next { s with block := { s.block with
      status := { s.block.status with errIll := true, active := false, valid := false, bcnt := 0 } } }

/-- R205: ERR_SEQ is raised in exactly the cases of the table. -/
def Obligations.SequenceErrorsHaveExactlyTheseCauses : Prop :=
  ∀ (i : Instr) (s : State),
    (sequenceError i s.block.status = true → exec i s = raiseError .seq s) ∧
    ∀ t, exec i s = .next t → s.block.status.errSeq = false →
      (t.block.status.errSeq = true ↔ sequenceError i s.block.status = true)

/-- R200: each error has its bit of STATUS, at its code, and exactly the causes of the table; the bits are sticky. -/
def Obligations.EachErrorBitHasItsCause : Prop :=
  ∀ (e : ErrorKind) (s t : State), step s = .next t →
    t.block.status.toBits.getLsbD e.code = t.block.status.has e ∧
    (s.block.status.has e = false → (t.block.status.has e = true ↔ errorCause e s = true)) ∧
    (s.block.status.has e = true → s.pending ≠ some (.ok .clrerr) → s.port.head? ≠ some .reset →
      t.block.status.has e = true)

/-- R206: the error lock. The invariant's clause (R204) is why the chain commands raise ERR_SEQ under it. -/
def Obligations.ErrorLockRefusesANewChain : Prop :=
  ∀ s : State, s.Inv → s.block.status.errorSet = true →
    exec .start s = .next s ∧
    (∀ d, exec (.stepw d) s = raiseError .seq s) ∧
    (∀ v, exec (.byte v) s = raiseError .seq s) ∧
    exec .finish s = raiseError .seq s ∧
    (∀ d, isWidth d = true → exec (.setw d) s = .next { s with block := { s.block with width := widthField d } }) ∧
    (∀ d, isWidth d = false → exec (.setw d) s = raiseError .cfg s) ∧
    (∀ d, exec (.setp d) s = .next { s with block := { s.block with poly := d } }) ∧
    (∀ d, exec (.seti d) s = .next { s with block := { s.block with init := d } }) ∧
    exec .nop s = .next s ∧
    exec .abort s = raiseError .io s ∧
    exec .clrerr s = .next { s with block := s.block.clearErrors } ∧
    ∀ i t, exec i s = .next t → i ≠ .clrerr → t.block.status.errorSet = true ∧ t.block.status.active = false

/-- spec/42_control.md R179, "the only way besides reset to leave the error lock", over every event of the host, from
every state of the invariant. -/
def Obligations.LockEndsOnlyByClrerrOrReset : Prop :=
  ∀ s t : State, s.Inv → s.block.status.errorSet = true → step s = .next t →
    s.pending ≠ some (.ok .clrerr) → s.port.head? ≠ some .reset →
    t.block.status.errorSet = true ∧ t.block.status.active = false ∧ t.block.status.valid = false ∧
      t.block.checksum = none ∧ t.block.crc = s.block.crc

/-- R207: the checks of one command, in their order; the first that applies decides; at most one error is raised. -/
def Obligations.ChecksAreMadeInOrder : Prop :=
  ∀ (w : CommandWord) (s : State) (rest : List HostEvent), s.port = .command w :: rest →
    (isIllegal w = true → step s = raiseError .ill { s with port := rest }) ∧
    (isIllegal w = false → ∃ i, decode w = .ok i ∧
      (lockedOut i s.block.status = true → step s = .next { s with port := rest }) ∧
      (lockedOut i s.block.status = false → sequenceError i s.block.status = true →
        step s = raiseError .seq { s with port := rest }) ∧
      (lockedOut i s.block.status = false → sequenceError i s.block.status = false → badWidth i = true →
        step s = raiseError .cfg { s with port := rest }) ∧
      (lockedOut i s.block.status = false → sequenceError i s.block.status = false → badWidth i = false →
        step s = .next { s with port := rest, block := ownEffect i s.block })) ∧
    ∀ (t : State) (e f : ErrorKind), step s = .next t →
      s.block.status.has e = false → t.block.status.has e = true →
      s.block.status.has f = false → t.block.status.has f = true → e = f

/-- spec/60_exceptions.md R202, "An error is precise", an inference of the spec: a step that records an error has
exactly the effect of its raise. -/
def Obligations.ErrorsArePrecise : Prop :=
  ∀ (e : ErrorKind) (s t : State), step s = .next t → s.block.status.has e = false →
    t.block.status.has e = true →
    t = { s with port := s.port.tail, block := { s.block with status := s.block.status.raise e } }

/-! ## The step engine -/

/-- R101: the 32-bit engine computes crc_step and every SR_k as the rule writes them, on unsigned numbers with an
unbounded shift; and the rule's example. -/
def Obligations.StepEngineComputesTheFeedbackShifter : Prop :=
  (∀ (word poly seed : Word) (w : Nat), 1 ≤ w → w ≤ 32 →
    (∀ k ≤ w, (shifter word poly seed w k).toNat = shifterNat word.toNat poly.toNat seed.toNat w k) ∧
    (crcStep word poly seed w).toNat = crcStepNat word.toNat poly.toNat seed.toNat w) ∧
  crcStep 0xC1 0xCB 0xFF 8 = 0x4C

/-- R104: one iteration, by arithmetic: doubled, XORed with the polynomial after the shift when bit w-1 was one before
it, and cut to w bits in both branches; and the rule's example. -/
def Obligations.IterationShiftsXorsAndMasks : Prop :=
  (∀ (r poly : Word) (w : Nat), 1 ≤ w → w ≤ 32 →
    (shift1 r poly w).toNat =
      if r.toNat.testBit (w - 1) then ((2 * r.toNat) ^^^ poly.toNat) % 2 ^ w else (2 * r.toNat) % 2 ^ w) ∧
  shift1 0xF8 0xCB 8 = 0x3B

/-- R102: mask(w) is 2^w - 1, with the rule's four values. -/
def Obligations.MaskHasExactlyWOnes : Prop :=
  (∀ w : Nat, w ≤ 32 → (mask w).toNat = 2 ^ w - 1) ∧
  mask 8 = 0xFF ∧ mask 16 = 0xFFFF ∧ mask 32 = 0xFFFFFFFF ∧ mask 1 = 0x1

/-- spec/40_step_engine.md section 2, the law of the range (the spec's inference). -/
def Obligations.StepResultFitsInTheWidth : Prop :=
  ∀ (word poly seed : Word) (w : Nat), 1 ≤ w → w ≤ 32 → (crcStep word poly seed w).toNat ≤ 2 ^ w - 1

/-- spec/40_step_engine.md section 2, the law of independence from high bits (the spec's inference): the result depends
only on the low w bits of each operand. -/
def Obligations.StepIgnoresBitsAboveTheWidth : Prop :=
  ∀ (word word' poly poly' seed seed' : Word) (w : Nat), 1 ≤ w → w ≤ 32 →
    (∀ j < w, word.getLsbD j = word'.getLsbD j) → (∀ j < w, poly.getLsbD j = poly'.getLsbD j) →
    (∀ j < w, seed.getLsbD j = seed'.getLsbD j) →
    crcStep word poly seed w = crcStep word' poly' seed' w

/-- spec/40_step_engine.md section 2, the law of seed and word (the spec's inference). -/
def Obligations.SeedAndWordEnterThroughTheirXor : Prop :=
  ∀ (word poly seed : Word) (w : Nat),
    crcStep word poly seed w = crcStep (word ^^^ seed) poly 0 w ∧
    crcStep word poly seed w = crcStep 0 poly (word ^^^ seed) w

/-- spec/40_step_engine.md section 2, linearity over GF(2) (the spec's inference), of seed and word together. -/
def Obligations.StepIsLinearOverXor : Prop :=
  ∀ (a b s t poly : Word) (w : Nat), 1 ≤ w → w ≤ 32 →
    crcStep (a ^^^ b) poly (s ^^^ t) w = crcStep a poly s w ^^^ crcStep b poly t w ∧
    crcStep 0 poly 0 w = 0

/-- spec/40_step_engine.md section 3, the zero polynomial (the spec's inference). -/
def Obligations.ZeroPolynomialGivesZero : Prop :=
  ∀ (word poly seed : Word) (w : Nat), 1 ≤ w → w ≤ 32 → (∀ j < w, poly.getLsbD j = false) →
    crcStep word poly seed w = 0

/-- spec/40_step_engine.md section 3, word equal to seed (the spec's inference). -/
def Obligations.WordEqualToSeedGivesZero : Prop :=
  ∀ (word poly seed : Word) (w : Nat), 1 ≤ w → w ≤ 32 → (∀ j < w, word.getLsbD j = seed.getLsbD j) →
    crcStep word poly seed w = 0

/-- spec/40_step_engine.md section 3, width 1 (the spec's inference). -/
def Obligations.WidthOneStepIsOneProduct : Prop :=
  ∀ word poly seed : Word, crcStep word poly seed 1 = (seed ^^^ word) &&& poly &&& 1

/-- spec/40_step_engine.md section 3, the unit word (the spec's inference). -/
def Obligations.UnitWordGivesThePolynomial : Prop :=
  ∀ (poly : Word) (w : Nat), 1 ≤ w → w ≤ 32 → crcStep 1 poly 0 w = poly &&& mask w

/-- spec/40_step_engine.md section 2, the polynomial meaning (the spec's inference, from general knowledge, G2): read
over GF(2), the step is the remainder of (seed XOR word)·x^w by x^w plus the polynomial. -/
def Obligations.StepIsThePolynomialRemainder : Prop :=
  ∀ (word poly seed : Word) (w : Nat), 1 ≤ w → w ≤ 32 →
    (∑ i ∈ Finset.range w, if (crcStep word poly seed w).getLsbD i then (Polynomial.X : Polynomial (ZMod 2)) ^ i
      else 0) =
    ((∑ i ∈ Finset.range w, if (seed ^^^ word).getLsbD i then (Polynomial.X : Polynomial (ZMod 2)) ^ i else 0) *
        Polynomial.X ^ w) %ₘ
      (Polynomial.X ^ w +
        ∑ i ∈ Finset.range w, if poly.getLsbD i then (Polynomial.X : Polynomial (ZMod 2)) ^ i else 0)

/-! ## Words of binary chaining -/

/-- R53: the group's word, as the shifts and ORs of the rule and as b3 || b2 || b1 || b0. -/
def Obligations.GroupWordIsLittleEndian : Prop :=
  ∀ b0 b1 b2 b3 : Byte,
    groupWord b0 b1 b2 b3 =
      (b3.setWidth 32 <<< 24) ||| (b2.setWidth 32 <<< 16) ||| (b1.setWidth 32 <<< 8) ||| b0.setWidth 32 ∧
    (groupWord b0 b1 b2 b3).toNat = b3.toNat * 2 ^ 24 + b2.toNat * 2 ^ 16 + b1.toNat * 2 ^ 8 + b0.toNat

/-- R55: when FINISH ends a stream with a partial group, the group is completed with zero bytes after the existing ones,
which are the most significant bytes of the word folded; with no partial group there is no padding word. -/
def Obligations.PartialGroupIsPaddedAbove : Prop :=
  (∀ b0 b1 b2 : Byte,
    groupWord b0 0 0 0 = b0.setWidth 32 ∧
    groupWord b0 b1 0 0 = (b1.setWidth 32 <<< 8) ||| b0.setWidth 32 ∧
    groupWord b0 b1 b2 0 = (b2.setWidth 32 <<< 16) ||| (b1.setWidth 32 <<< 8) ||| b0.setWidth 32) ∧
  ∀ s : State, s.block.status.active = true → ∃ t, exec .finish s = .next t ∧
    (s.block.status.bcnt = 1 → t.block.crc =
      crcStep (groupWord s.block.b0 0 0 0) s.block.poly s.block.crc s.block.width.toNat) ∧
    (s.block.status.bcnt = 2 → t.block.crc =
      crcStep (groupWord s.block.b0 s.block.b1 0 0) s.block.poly s.block.crc s.block.width.toNat) ∧
    (s.block.status.bcnt = 3 → t.block.crc =
      crcStep (groupWord s.block.b0 s.block.b1 s.block.b2 0) s.block.poly s.block.crc s.block.width.toNat) ∧
    (s.block.status.bcnt = 0 → t.block.crc = s.block.crc)

/-! ## Chains -/

/-- spec/41_chainer.md R132, its claim about this block (the spec's inference): the commands of TEXT leave
chain_text of the strings, for every host map `code`, in any state with no chain open and no error. That START and
FINISH leave B0..B2, which R27 calls UNSPEC then, is the model's inference, log 7. -/
def Obligations.TextChainLeavesChainText : Prop :=
  ∀ (code : Char → Word) (strings : List (List Char)) (s : State) (rest : List HostEvent),
    s.block.Idle → s.port = commandEvents (expandPseudo code (.text strings)) ++ rest →
    Host.Core.run Sys2Proof.core (strings.flatten.length + 2) s = .next { s with
      port := rest
      block := { s.block with
        crc := chainText code strings s.block.poly s.block.init s.block.width.toNat
        status := { Status.clear with valid := true } } }

/-- spec/41_chainer.md R142 (the spec's inference): the commands of FILE leave chain_file of the stream, in any state
with no chain open and no error. -/
def Obligations.FileChainLeavesChainFile : Prop :=
  ∀ (code : Char → Word) (stream : List Byte) (s : State) (rest : List HostEvent),
    s.block.Idle → s.port = commandEvents (expandPseudo code (.file stream)) ++ rest →
    ∃ t : State, Host.Core.run Sys2Proof.core (stream.length + 2) s = .next t ∧
      t.block.crc = chainFile stream s.block.poly s.block.init s.block.width.toNat ∧
      t.block.status = { Status.clear with valid := true } ∧ t.port = rest ∧ t.draws = s.draws ∧
      t.block.width = s.block.width ∧ t.block.poly = s.block.poly ∧ t.block.init = s.block.init

/-- spec/41_chainer.md R143 (the spec's inference): a stream of one byte and the stream of that byte and three zero
bytes leave the same checksum, one step of the byte from INIT. -/
def Obligations.OneByteFileEqualsItsZeroFilledFile : Prop :=
  ∀ (code : Char → Word) (v : Byte) (s s' : State) (rest rest' : List HostEvent),
    s.block.Idle → s'.block = s.block →
    s.port = commandEvents (expandPseudo code (.file [v])) ++ rest →
    s'.port = commandEvents (expandPseudo code (.file [v, 0, 0, 0])) ++ rest' →
    ∃ t t' : State, Host.Core.run Sys2Proof.core 3 s = .next t ∧ Host.Core.run Sys2Proof.core 6 s' = .next t' ∧
      t.block.checksum = some (crcStep (v.setWidth 32) s.block.poly s.block.init s.block.width.toNat) ∧
      t'.block.checksum = t.block.checksum

/-- spec/41_chainer.md R144 (the spec's inference): a stream of whole little-endian groups leaves the same CRC as the
words of the groups given by STEPW. -/
def Obligations.WholeGroupsFoldAsTheirWords : Prop :=
  ∀ (code : Char → Word) (words : List Word) (s : State) (rest : List HostEvent),
    s.block.Idle →
    s.port = commandEvents (expandPseudo code (.file (words.flatMap (fun w =>
      [w.extractLsb' 0 8, w.extractLsb' 8 8, w.extractLsb' 16 8, w.extractLsb' 24 8])))) ++ rest →
    ∃ t t' : State, Host.Core.run Sys2Proof.core (4 * words.length + 2) s = .next t ∧
      Host.Core.run Sys2Proof.core (words.length + 2)
        { s with port := commandEvents (.start :: words.map .stepw ++ [.finish]) ++ rest } = .next t' ∧
      t.block.crc = t'.block.crc ∧ t.block.status = t'.block.status ∧
      t.block.crc = chainWords words s.block.poly s.block.init s.block.width.toNat

/-! ## Invariants and whole-machine rules -/

/-- The invariant holds after reset, for every draw of the registers R33 leaves UNSPEC. -/
def Obligations.InvariantHoldsAtReset : Prop :=
  State.reset.Inv ∧
  ∀ (crc : Word) (b0 b1 b2 : Byte), (Block.atReset crc b0 b1 b2).Inv ∧ (Block.atReset crc b0 b1 b2).Idle

/-- spec/10_state.md R21 and spec/60_exceptions.md R204 (the spec's inference), with the two clauses of R26's table:
every step from every state keeps the invariant. -/
def Obligations.InvariantKeptByEveryStep : Prop :=
  ∀ s t : State, s.Inv → step s = .next t → t.Inv

/-- spec/70_reset_and_hazards.md R242 and spec/10_state.md R27 (the spec's inferences): what the spec leaves UNSPEC
never comes to matter. From two machines that agree on everything but CRC outside a chain and a valid result and the
bytes that are not buffered, the same events lead to two such machines, and such machines show the same checksum. -/
def Obligations.UnspecValuesNeverReachAChecksum : Prop :=
  (∀ s s' t : State, s.SameKnown s' → step s = .next t → ∃ t', step s' = .next t' ∧ t.SameKnown t') ∧
  ∀ s s' : State, s.SameKnown s' →
    s.block.checksum = s'.block.checksum ∧ s.block.ports.statusOut = s'.block.ports.statusOut ∧
    s.block.ports.widthOut = s'.block.ports.widthOut ∧ s.block.ports.polyOut = s'.block.ports.polyOut ∧
    s.block.ports.initOut = s'.block.ports.initOut ∧
    (s.block.status.active = true → s.block.ports.crcOut = s'.block.ports.crcOut)

/-- spec/70_reset_and_hazards.md R242, "a claim about CRC_OUT after reset and before the first START or step must hold
for every draw": two blocks reset to any two draws and given any same events show the same checksum after any number of
steps. -/
def Obligations.EveryDrawGivesTheSameChecksum : Prop :=
  ∀ (crc crc' : Word) (b0 b1 b2 b0' b1' b2' : Byte) (port : List HostEvent) (draws draws' n : Nat) (t : State),
    Host.Core.run Sys2Proof.core n { block := Block.atReset crc b0 b1 b2, port := port, draws := draws } = .next t →
    ∃ t', Host.Core.run Sys2Proof.core n { block := Block.atReset crc' b0' b1' b2', port := port, draws := draws' } =
        .next t' ∧
      t.block.checksum = t'.block.checksum ∧ t.block.ports.statusOut = t'.block.ports.statusOut

/-- spec/10_state.md R25 (the spec's inference): a command that performs a CRC step (STEPW, the fourth BYTE of a group,
FINISH on a partial group) leaves CRC below 2^WIDTH, whatever CRC was; START leaves it at INIT exactly, which may have
bits above; no other command writes it (R24), and inside a chain a CRC within the width stays within it. -/
def Obligations.CrcFitsTheWidthAfterAStep : Prop :=
  ∀ s : State, s.Inv →
    (∀ d, sequenceError (.stepw d) s.block.status = false → ∃ t, exec (.stepw d) s = .next t ∧
      t.block.width = s.block.width ∧ t.block.crc.toNat < 2 ^ s.block.width.toNat) ∧
    (∀ v, s.block.status.active = true → s.block.status.bcnt = 3 → ∃ t, exec (.byte v) s = .next t ∧
      t.block.width = s.block.width ∧ t.block.crc.toNat < 2 ^ s.block.width.toNat) ∧
    (s.block.status.active = true → s.block.status.bcnt ≠ 0 → ∃ t, exec .finish s = .next t ∧
      t.block.width = s.block.width ∧ t.block.crc.toNat < 2 ^ s.block.width.toNat) ∧
    (s.block.Idle → ∃ t, exec .start s = .next t ∧
      t.block.width = s.block.width ∧ t.block.crc = s.block.init) ∧
    ∀ i t, exec i s = .next t →
      (t.block.crc = s.block.crc ∨ (i = .start ∧ t.block.crc = s.block.init) ∨
        t.block.crc.toNat < 2 ^ t.block.width.toNat) ∧
      (s.block.status.active = true → s.block.crc.toNat < 2 ^ s.block.width.toNat →
        t.block.crc.toNat < 2 ^ t.block.width.toNat)

/-- spec/41_chainer.md R130, "Configuration (WIDTH, POLY, INIT) is fixed for the whole chain": no event but the reset
input changes it while a chain is open, and the commands that would change it end the chain. -/
def Obligations.ConfigurationIsFixedInsideAChain : Prop :=
  ∀ s t : State, s.block.status.active = true → s.port.head? ≠ some .reset → step s = .next t →
    t.block.width = s.block.width ∧ t.block.poly = s.block.poly ∧ t.block.init = s.block.init ∧
    (∀ d, s.pending = some (.ok (.setw d)) ∨ s.pending = some (.ok (.setp d)) ∨ s.pending = some (.ok (.seti d)) →
      t.block.status.active = false ∧ t.block.status.errSeq = true)

/-- spec/10_state.md sections 2 to 5: which command writes which register, and which sets or clears which field of
STATUS, over all commands and states. -/
def Obligations.EachRegisterHasItsWriters : Prop :=
  ∀ (i : Instr) (s t : State), exec i s = .next t →
    (t.block.width ≠ s.block.width → ∃ d, i = .setw d) ∧
    (t.block.poly ≠ s.block.poly → ∃ d, i = .setp d) ∧
    (t.block.init ≠ s.block.init → ∃ d, i = .seti d) ∧
    (t.block.crc ≠ s.block.crc → i = .start ∨ (∃ d, i = .stepw d) ∨ (∃ v, i = .byte v) ∨ i = .finish) ∧
    (t.block.b0 ≠ s.block.b0 ∨ t.block.b1 ≠ s.block.b1 ∨ t.block.b2 ≠ s.block.b2 → ∃ v, i = .byte v) ∧
    (s.block.status.active = false → t.block.status.active = true → i = .start) ∧
    (s.block.status.valid = false → t.block.status.valid = true → i = .finish) ∧
    (s.block.status.valid = true → t.block.status.valid = false →
      i = .start ∨ t.block.status.errorSet = true) ∧
    (s.block.status.active = true → t.block.status.active = false →
      i = .finish ∨ t.block.status.errorSet = true) ∧
    (t.block.status.bcnt ≠ s.block.status.bcnt → t.block.status.bcnt ≠ 0 → ∃ v, i = .byte v) ∧
    (∀ e, s.block.status.has e = true → t.block.status.has e = false → i = .clrerr) ∧
    t.port = s.port ∧ t.draws = s.draws

/-- Frame of SETW, SETP and SETI (spec/42_control.md R172 to R176): each writes its own register at most; CRC, the
buffer, the host's events and, unless an error is raised, STATUS stay; an error leaves every error bit but its own. -/
def Obligations.FrameOfTheConfigurationCommands : Prop :=
  ∀ (d : Word) (i : Instr) (s t : State), i = .setw d ∨ i = .setp d ∨ i = .seti d → exec i s = .next t →
    t.block.crc = s.block.crc ∧ t.block.b0 = s.block.b0 ∧ t.block.b1 = s.block.b1 ∧ t.block.b2 = s.block.b2 ∧
    t.port = s.port ∧ t.draws = s.draws ∧
    (i ≠ .setw d → t.block.width = s.block.width) ∧ (i ≠ .setp d → t.block.poly = s.block.poly) ∧
    (i ≠ .seti d → t.block.init = s.block.init) ∧
    (s.block.status.active = false → badWidth i = false → t.block.status = s.block.status) ∧
    (s.block.status.active = true → t.block = { s.block with status := s.block.status.raise .seq }) ∧
    (s.block.status.active = false → badWidth i = true →
      t.block = { s.block with status := s.block.status.raise .cfg }) ∧
    t.block.status.errIo = s.block.status.errIo ∧ t.block.status.errIll = s.block.status.errIll

/-- Frame of START, STEPW, BYTE and FINISH (spec/41_chainer.md): the configuration, three error bits, the host's events
and the buffer (but for the byte a BYTE stores) stay; CRC stays while a byte is only buffered. That START, FINISH and
the fourth BYTE leave the buffer is log 7. -/
def Obligations.FrameOfTheChainCommands : Prop :=
  ∀ (d : Word) (v : Byte) (i : Instr) (s t : State),
    i = .start ∨ i = .stepw d ∨ i = .byte v ∨ i = .finish → exec i s = .next t →
    t.block.width = s.block.width ∧ t.block.poly = s.block.poly ∧ t.block.init = s.block.init ∧
    t.port = s.port ∧ t.draws = s.draws ∧
    t.block.status.errCfg = s.block.status.errCfg ∧ t.block.status.errIo = s.block.status.errIo ∧
    t.block.status.errIll = s.block.status.errIll ∧
    (sequenceError i s.block.status = false → t.block.status.errSeq = s.block.status.errSeq) ∧
    (sequenceError i s.block.status = true → t.block = { s.block with status := s.block.status.raise .seq }) ∧
    (i = .stepw d → sequenceError i s.block.status = false → t.block.status = s.block.status) ∧
    (i = .byte v → sequenceError i s.block.status = false →
      t.block.status.active = true ∧ t.block.status.valid = s.block.status.valid) ∧
    (i ≠ .byte v ∨ s.block.status.bcnt ≠ 0 → t.block.b0 = s.block.b0) ∧
    (i ≠ .byte v ∨ s.block.status.bcnt ≠ 1 → t.block.b1 = s.block.b1) ∧
    (i ≠ .byte v ∨ s.block.status.bcnt ≠ 2 → t.block.b2 = s.block.b2) ∧
    (i = .byte v → s.block.status.bcnt ≠ 3 → t.block.crc = s.block.crc) ∧
    (i = .finish → s.block.status.bcnt = 0 → t.block.crc = s.block.crc)

/-- Frame of NOP, ABORT and CLRERR (spec/42_control.md): only STATUS can change; NOP leaves it, ABORT leaves three
error bits, CLRERR leaves ACTIVE, VALID and BCNT. -/
def Obligations.FrameOfTheControlCommands : Prop :=
  ∀ (i : Instr) (s t : State), i = .nop ∨ i = .abort ∨ i = .clrerr → exec i s = .next t →
    t.block = { s.block with status := t.block.status } ∧ t.port = s.port ∧ t.draws = s.draws ∧
    (i = .nop → t.block.status = s.block.status) ∧
    (i = .abort → t.block.status.errCfg = s.block.status.errCfg ∧ t.block.status.errSeq = s.block.status.errSeq ∧
      t.block.status.errIll = s.block.status.errIll) ∧
    (i = .clrerr → t.block.status.active = s.block.status.active ∧ t.block.status.valid = s.block.status.valid ∧
      t.block.status.bcnt = s.block.status.bcnt)

/-- R30: the five output ports, with the bits of STATUS_OUT where R26 places them. -/
def Obligations.OutputPortsShowTheRegisters : Prop :=
  ∀ b : Block,
    b.ports.crcOut = b.crc ∧ b.ports.widthOut = b.width ∧ b.ports.polyOut = b.poly ∧ b.ports.initOut = b.init ∧
    b.ports.statusOut.getLsbD 0 = b.status.active ∧ b.ports.statusOut.getLsbD 1 = b.status.valid ∧
    b.ports.statusOut.extractLsb' 2 2 = b.status.bcnt ∧
    b.ports.statusOut.getLsbD 4 = b.status.errCfg ∧ b.ports.statusOut.getLsbD 5 = b.status.errSeq ∧
    b.ports.statusOut.getLsbD 6 = b.status.errIo ∧ b.ports.statusOut.getLsbD 7 = b.status.errIll

/-- spec/70_reset_and_hazards.md R244 (the spec's inference): a result stays on CRC_OUT under the commands that raise no
error and do not act on a chain; a command that raises an error clears VALID, and START opening a chain clears it. -/
def Obligations.ResultStaysUntilAChainOrAnError : Prop :=
  ∀ (i : Instr) (s t : State), exec i s = .next t → s.Inv → s.block.status.valid = true →
    (i ≠ .start → (∀ d, i ≠ .stepw d) → (∀ v, i ≠ .byte v) → i ≠ .finish → i ≠ .abort → badWidth i = false →
      t.block.status.valid = true ∧ t.block.crc = s.block.crc ∧ t.block.checksum = s.block.checksum) ∧
    (i = .abort ∨ badWidth i = true ∨ (∃ d, i = .stepw d) ∨ (∃ v, i = .byte v) ∨ i = .finish →
      t.block.status.valid = false ∧ t.block.status.errorSet = true ∧ t.block.checksum = none) ∧
    (i = .start → t.block.status.valid = false ∧ t.block.status.active = true)

/-! ## The assembler -/

/-- spec/30_encoding.md R79. Every word of a line the assembler accepts is OP·2^32 + operand of a command of the line,
and legal. A line of a mnemonic in any case, with an operand where the command has one and perhaps a comment, is that
one command: the operand is a decimal or `0x` number or, for STEPW and BYTE only, a character literal, under any host
map; one that does not fit DATA is an error. Blanks and digits are as log 10 reads them. -/
def Obligations.AssembledWordsAreLegalCommands : Prop :=
  ∀ code : Char → Word,
    (∀ (line : List Char) (ws : List CommandWord), assembleWords code line = .ok ws →
      ∃ is, assembleLine code line = .ok is ∧ ws = is.map encode ∧
        ws.map BitVec.toNat = is.map (fun i => (opcode i).toNat * 2 ^ 32 + (operand i).toNat) ∧
        ∀ w ∈ ws, isLegal w = true ∧ ∃ i ∈ is, decode w = .ok i) ∧
    ∀ lead name fin : List Char, IsBlanks lead → IsLineEnd fin →
      assembleLine code fin = .ok [] ∧
      (IsNameText name "NOP" → assembleLine code (lead ++ name ++ fin) = .ok [.nop]) ∧
      (IsNameText name "START" → assembleLine code (lead ++ name ++ fin) = .ok [.start]) ∧
      (IsNameText name "FINISH" → assembleLine code (lead ++ name ++ fin) = .ok [.finish]) ∧
      (IsNameText name "ABORT" → assembleLine code (lead ++ name ++ fin) = .ok [.abort]) ∧
      (IsNameText name "CLRERR" → assembleLine code (lead ++ name ++ fin) = .ok [.clrerr]) ∧
      ∀ (gap text : List Char) (n : Nat), IsBlanks gap → gap ≠ [] →
        (IsNumberText text n → IsNameText name "SETW" → assembleLine code (lead ++ name ++ gap ++ text ++ fin) =
          if n < 2 ^ 32 then .ok [.setw (BitVec.ofNat 32 n)] else .error .operandTooWide) ∧
        (IsNumberText text n → IsNameText name "SETP" → assembleLine code (lead ++ name ++ gap ++ text ++ fin) =
          if n < 2 ^ 32 then .ok [.setp (BitVec.ofNat 32 n)] else .error .operandTooWide) ∧
        (IsNumberText text n → IsNameText name "SETI" → assembleLine code (lead ++ name ++ gap ++ text ++ fin) =
          if n < 2 ^ 32 then .ok [.seti (BitVec.ofNat 32 n)] else .error .operandTooWide) ∧
        (IsNumberText text n ∨ IsCharText code text n → IsNameText name "STEPW" →
          assembleLine code (lead ++ name ++ gap ++ text ++ fin) =
            if n < 2 ^ 32 then .ok [.stepw (BitVec.ofNat 32 n)] else .error .operandTooWide) ∧
        (IsNumberText text n ∨ IsCharText code text n → IsNameText name "BYTE" →
          assembleLine code (lead ++ name ++ gap ++ text ++ fin) =
            if n < 2 ^ 8 then .ok [.byte (BitVec.ofNat 8 n)] else .error .operandTooWide) ∧
        (IsCharText code text n → IsNameText name "SETW" ∨ IsNameText name "SETP" ∨ IsNameText name "SETI" →
          ∃ why, assembleLine code (lead ++ name ++ gap ++ text ++ fin) = .error why)

/-- R80: the expansions of the pseudo-instructions. -/
def Obligations.PseudoInstructionsExpand : Prop :=
  ∀ code : Char → Word,
    (∀ w p i, expandPseudo code (.config w p i) = [.setw w, .setp p, .seti i]) ∧
    (∀ x, expandPseudo code (.crcstep x) = [.start, .stepw x, .finish]) ∧
    (∀ strings, expandPseudo code (.text strings) =
      .start :: (strings.flatMap (fun cs => cs.map (fun c => .stepw (code c))) ++ [.finish])) ∧
    (∀ bytes, expandPseudo code (.file bytes) = .start :: (bytes.map .byte ++ [.finish])) ∧
    (∀ strings, (∀ cs ∈ strings, cs = []) → expandPseudo code (.text strings) = [.start, .finish]) ∧
    expandPseudo code (.file []) = [.start, .finish]

/-- R79 and R80: a line of a pseudo-instruction in any case is its expansion. Operands that fit are separated by a
comma and a space; the lexical form (a character literal for an operand of CRCSTEP and FILE among it) is log 10. -/
def Obligations.PseudoInstructionLinesAreTheirExpansions : Prop :=
  ∀ (code : Char → Word) (lead name gap fin : List Char),
    IsBlanks lead → IsBlanks gap → gap ≠ [] → IsLineEnd fin →
    (∀ (w p i : Word) (tw tp ti : List Char), IsNameText name "CONFIG" →
      IsNumberText tw w.toNat → IsNumberText tp p.toNat → IsNumberText ti i.toNat →
      assembleLine code (lead ++ name ++ gap ++ operandsText [tw, tp, ti] ++ fin) =
        .ok (expandPseudo code (.config w p i))) ∧
    (∀ (x : Word) (text : List Char), IsNameText name "CRCSTEP" →
      IsNumberText text x.toNat ∨ IsCharText code text x.toNat →
      assembleLine code (lead ++ name ++ gap ++ text ++ fin) = .ok (expandPseudo code (.crcstep x))) ∧
    (∀ strings : List (List Char), IsNameText name "TEXT" → (∀ cs ∈ strings, doubleQuote ∉ cs) →
      assembleLine code (lead ++ name ++ gap ++
          operandsText (strings.map (fun cs => doubleQuote :: cs ++ [doubleQuote])) ++ fin) =
        .ok (expandPseudo code (.text strings))) ∧
    ∀ (bytes : List Byte) (texts : List (List Char)), IsNameText name "FILE" →
      List.Forall₂ (fun text v => IsNumberText text v.toNat ∨ IsCharText code text v.toNat) texts bytes →
      assembleLine code (lead ++ name ++ gap ++ operandsText texts ++ fin) =
        .ok (expandPseudo code (.file bytes))
end

