-- ==== Sys2Proof/Laws/Assembler.lean ====
section
/-! SUPPORT. The assembler's line, piece by piece: what the lexer reads from blanks, a word, a literal, a comma and a
comment, what number the text of a number denotes, and what a line of a keyword and its operands assembles to. -/

namespace Sys2Proof.Machine

/-- A character of a mnemonic or a number: none that separates, quotes or starts a comment. -/
def isWordChar (c : Char) : Bool := !isBlank c && c != ';' && c != ',' && c != singleQuote && c != doubleQuote

/-- The texts after which a word ends: the end of the line, a blank, a comment, a comma. -/
def EndsWord (rest : List Char) : Prop :=
  ∀ c ∈ rest.head?, isBlank c = true ∨ c = ';' ∨ c = ','

/-- Blanks before a token are skipped. -/
theorem lex_gap_blanks (blanks rest : List Char) (h : IsBlanks blanks) :
    lex .gap (blanks ++ rest) = lex .gap rest := by
  induction blanks with
  | nil => rfl
  | cons c blanks ih =>
    have hc : isBlank c = true := by simpa [isBlank] using h c (by simp)
    rw [List.cons_append, lex, if_pos hc, ih fun d hd => h d (by simp [hd])]

/-- After the last operand there is no further token (R79). -/
theorem lex_gap_end (fin : List Char) (h : IsLineEnd fin) : lex .gap fin = .ok [] := by
  obtain ⟨blanks, comment, rfl, hb, rfl | ⟨remark, rfl⟩⟩ := h <;> rw [lex_gap_blanks _ _ hb] <;> rfl

/-- A word runs to the first character that ends it. -/
theorem lex_inWord (read text rest : List Char) (h : ∀ c ∈ text, isWordChar c = true) (hr : EndsWord rest) :
    lex (.inWord read) (text ++ rest) = (Token.word (read.reverse ++ text) :: ·) <$> lex .gap rest := by
  induction text generalizing read with
  | nil =>
    cases rest with
    | nil => simp [lex]
    | cons c rest =>
      rcases hr c (by simp) with hc | rfl | rfl
      · simp [lex, hc]
      · simp [lex, isBlank]
      · cases hl : lex .gap rest <;> simp [lex, isBlank, hl]
  | cons c text ih =>
    have hc := h c (by simp)
    simp only [isWordChar, Bool.and_eq_true, Bool.not_eq_true', bne_iff_ne, ne_eq] at hc
    rw [List.cons_append, lex, if_neg (by simp [hc]), if_neg (by simp [hc]), if_neg (by simp [hc]),
      if_neg (by simp [hc]), ih _ fun d hd => h d (by simp [hd])]
    simp

/-- A mnemonic or a number is one token. -/
theorem lex_word (text rest : List Char) (hne : text ≠ []) (h : ∀ c ∈ text, isWordChar c = true)
    (hr : EndsWord rest) : lex .gap (text ++ rest) = (Token.word text :: ·) <$> lex .gap rest := by
  cases text with
  | nil => exact absurd rfl hne
  | cons c text =>
    have hc := h c (by simp)
    simp only [isWordChar, Bool.and_eq_true, Bool.not_eq_true', bne_iff_ne, ne_eq] at hc
    rw [List.cons_append, lex, if_neg (by simp [hc]), if_neg (by simp [hc]), if_neg (by simp [hc]),
      if_neg (by simp [hc]), if_neg (by simp [hc]), lex_inWord _ _ _ (fun d hd => h d (by simp [hd])) hr]
    rfl

/-- A character literal is one token. -/
theorem lex_char (c : Char) (rest : List Char) :
    lex .gap ([singleQuote, c, singleQuote] ++ rest) = (Token.char c :: ·) <$> lex .gap rest := by
  simp [lex, isBlank, singleQuote]

/-- A string runs to its closing quote. -/
theorem lex_inString (read text rest : List Char) (h : doubleQuote ∉ text) :
    lex (.inString read) (text ++ doubleQuote :: rest) = (Token.str (read.reverse ++ text) :: ·) <$> lex .gap rest := by
  induction text generalizing read with
  | nil => simp [lex]
  | cons c text ih =>
    rw [List.cons_append, lex, if_neg (by rintro rfl; simp at h), ih _ (by simp_all)]
    simp

/-- A string is one token. -/
theorem lex_string (text rest : List Char) (h : doubleQuote ∉ text) :
    lex .gap ((doubleQuote :: text ++ [doubleQuote]) ++ rest) = (Token.str text :: ·) <$> lex .gap rest := by
  have : (doubleQuote :: text ++ [doubleQuote]) ++ rest = doubleQuote :: (text ++ doubleQuote :: rest) := by simp
  rw [this, lex, if_neg (by decide), if_neg (by decide), if_neg (by decide), if_neg (by decide), if_pos rfl,
    lex_inString _ _ _ h]
  rfl

/-- A comma is one token. -/
theorem lex_comma (rest : List Char) : lex .gap (',' :: rest) = (Token.comma :: ·) <$> lex .gap rest := by
  rw [lex, if_neg (by decide), if_neg (by decide), if_pos rfl]

/-- What follows a word in a line ends it. -/
theorem endsWord_blanks (blanks rest : List Char) (h : IsBlanks blanks) (hne : blanks ≠ []) :
    EndsWord (blanks ++ rest) := by
  cases blanks with
  | nil => exact absurd rfl hne
  | cons c blanks => intro d hd; obtain rfl : c = d := by simpa using hd
                     exact .inl (by simpa [isBlank] using h c (by simp))

theorem endsWord_end (fin : List Char) (h : IsLineEnd fin) : EndsWord fin := by
  obtain ⟨blanks, comment, rfl, hb, hc⟩ := h
  cases blanks with
  | nil => obtain rfl | ⟨remark, rfl⟩ := hc <;> (intro d hd; simp at hd; try simp [← hd])
  | cons c blanks => exact endsWord_blanks _ _ hb (by simp)

theorem endsWord_comma (rest : List Char) : EndsWord (',' :: rest) := by
  intro d hd; simp at hd; simp [← hd]

/-- A digit's character is of a word, has the digit's value, and is no `x`. -/
theorem digit_char (d : Nat) (hd : d < 16) (c : Char) (hc : c = d.digitChar ∨ c = d.digitChar.toUpper) :
    isWordChar c = true ∧ digitValue 16 c = some d ∧ (d < 10 → digitValue 10 c = some d) ∧ c ≠ 'x' := by
  interval_cases d <;> rcases hc with rfl | rfl <;> decide

/-- Digits denote their number, after those already read. -/
theorem digitsValue_eq (base : Nat) (hb : base = 10 ∨ base = 16) (text : List Char) (digits : List Nat)
    (h : AreDigits base text digits) (acc : Nat) :
    digitsValue base acc text = some (acc * base ^ digits.length + Nat.ofDigits base digits.reverse) := by
  induction h generalizing acc with
  | nil => simp [digitsValue]
  | @cons c d text digits hcd _ ih =>
    have hd : digitValue base c = some d := by
      rcases hb with rfl | rfl
      · exact (digit_char d (by omega) c hcd.2).2.2.1 hcd.1
      · exact (digit_char d hcd.1 c hcd.2).2.1
    simp only [digitsValue, hd, ih, List.length_cons, List.reverse_cons, Nat.ofDigits_append, List.length_reverse,
      Nat.ofDigits_singleton]
    congr 1; ring

/-- The characters of digits are of a word. -/
theorem areDigits_word (base : Nat) (hb : base ≤ 16) (text : List Char) (digits : List Nat)
    (h : AreDigits base text digits) : ∀ c ∈ text, isWordChar c = true ∧ c ≠ 'x' := by
  induction h with
  | nil => simp
  | cons hcd _ ih =>
    have := digit_char _ (by omega) _ hcd.2
    simp only [List.mem_cons, forall_eq_or_imp]
    exact ⟨⟨this.1, this.2.2.2⟩, ih⟩

/-- Without a leading `0x` a number is decimal (R79). -/
theorem parseNumber_decimal (text : List Char) (hne : text ≠ []) (hx : ∀ c ∈ text, c ≠ 'x') :
    parseNumber text = digitsValue 10 0 text := by
  unfold parseNumber
  split <;> simp_all

/-- The text of a number is a word that denotes the number (R79). -/
theorem numberText_word (text : List Char) (n : Nat) (h : IsNumberText text n) :
    text ≠ [] ∧ (∀ c ∈ text, isWordChar c = true) ∧ parseNumber text = some n := by
  obtain ⟨digits, hne, ⟨hd, rfl⟩ | ⟨hex, rfl, hd, rfl⟩⟩ := h
  · have ht : text ≠ [] := by rintro rfl; cases hd; exact hne rfl
    have hw := areDigits_word 10 (by omega) _ _ hd
    refine ⟨ht, fun c hc => (hw c hc).1, ?_⟩
    rw [parseNumber_decimal _ ht fun c hc => (hw c hc).2, digitsValue_eq 10 (.inl rfl) _ _ hd]
    simp
  · have hw := areDigits_word 16 (by omega) _ _ hd
    refine ⟨by simp, ?_, ?_⟩
    · simp only [List.mem_cons, forall_eq_or_imp]
      exact ⟨by decide, by decide, fun c hc => (hw c hc).1⟩
    · cases hex with
      | nil => cases hd; exact absurd rfl hne
      | cons c hex => simp [parseNumber, digitsValue_eq 16 (.inr rfl) _ _ hd]

/-- A name in any case is a word, since no character that ends a word becomes a letter (R79). -/
theorem nameText_word (text : List Char) (name : String) (h : IsNameText text name)
    (hn : ∀ c ∈ name.toList, isWordChar c = true) : ∀ c ∈ text, isWordChar c = true := by
  intro c hc
  by_contra hw
  have hu : c.toUpper = c := by
    simp only [isWordChar, isBlank, Bool.and_eq_true, Bool.not_eq_true', bne_iff_ne, ne_eq, Bool.or_eq_false_iff,
      beq_eq_false_iff_ne, not_and_or, not_not] at hw
    rcases hw with (((((rfl | rfl)) | rfl) | rfl) | rfl) | rfl <;> decide
  have := hn c.toUpper (by rw [← h]; exact List.mem_map_of_mem hc)
  rw [hu] at this
  exact hw this

/-- The name of a keyword (R72, R80). -/
def Keyword.name : Keyword → String
  | .nop => "NOP" | .setw => "SETW" | .setp => "SETP" | .seti => "SETI" | .start => "START" | .stepw => "STEPW"
  | .byte => "BYTE" | .finish => "FINISH" | .abort => "ABORT" | .clrerr => "CLRERR"
  | .config => "CONFIG" | .crcstep => "CRCSTEP" | .text => "TEXT" | .file => "FILE"

/-- A keyword's name in any case is read as the keyword (R79). -/
theorem keywordOf_name (text : List Char) (k : Keyword) (h : IsNameText text k.name) : keywordOf text = some k := by
  have hm : keywordOf text = keywordOf k.name.toList := by
    have hu : k.name.toList.map Char.toUpper = k.name.toList := by cases k <;> decide
    simp only [keywordOf, hu, show text.map Char.toUpper = k.name.toList from h]
  rw [hm]
  cases k <;> decide

/-- A keyword's name in any case is a word. -/
theorem keywordName_word (text : List Char) (k : Keyword) (h : IsNameText text k.name) :
    text ≠ [] ∧ ∀ c ∈ text, isWordChar c = true := by
  have hk : k.name.toList ≠ [] ∧ k.name.toList.all isWordChar = true := by cases k <;> decide
  exact ⟨by rintro rfl; exact hk.1 h.symm, nameText_word text _ h (List.all_eq_true.1 hk.2)⟩

/-- What a line that begins with a keyword assembles to: the keyword's commands over the operands of the rest. -/
theorem assembleLine_keyword (code : Char → Word) (lead text rest : List Char) (k : Keyword)
    (hl : IsBlanks lead) (hn : IsNameText text k.name) (hr : EndsWord rest) :
    assembleLine code (lead ++ text ++ rest) =
      lex .gap rest >>= fun tokens => operandList tokens >>= assembleKeyword code k := by
  have hw := keywordName_word text k hn
  simp only [assembleLine, List.append_assoc, lex_gap_blanks _ _ hl, lex_word _ _ hw.1 hw.2 hr]
  cases lex .gap rest <;> simp [keywordOf_name text k hn, Functor.map, Except.map, Bind.bind, Except.bind]

/-- A text that is one token, no comma, wherever something that ends a word follows it. -/
def ReadsAs (text : List Char) (token : Token) : Prop :=
  token ≠ .comma ∧ ∀ rest, EndsWord rest → lex .gap (text ++ rest) = (token :: ·) <$> lex .gap rest

theorem numberText_reads (text : List Char) (n : Nat) (h : IsNumberText text n) : ReadsAs text (.word text) :=
  have hw := numberText_word text n h
  ⟨nofun, fun rest hr => lex_word text rest hw.1 hw.2.1 hr⟩

theorem char_reads (c : Char) : ReadsAs [singleQuote, c, singleQuote] (.char c) :=
  ⟨nofun, fun rest _ => lex_char c rest⟩

theorem string_reads (text : List Char) (h : doubleQuote ∉ text) :
    ReadsAs (doubleQuote :: text ++ [doubleQuote]) (.str text) :=
  ⟨nofun, fun rest _ => lex_string text rest h⟩

/-- Operands with commas between them are their tokens with commas between them (R80). -/
theorem lex_operands (texts : List (List Char)) (tokens : List Token) (h : List.Forall₂ ReadsAs texts tokens)
    (fin : List Char) (hf : IsLineEnd fin) :
    lex .gap (operandsText texts ++ fin) = .ok (tokens.intersperse .comma) := by
  induction h with
  | nil => simpa [operandsText] using lex_gap_end fin hf
  | @cons text token texts tokens h1 hs ih =>
    cases hs with
    | nil =>
      have he : operandsText [text] = text := by simp [operandsText, List.intercalate]
      rw [he, h1.2 fin (endsWord_end fin hf), lex_gap_end fin hf]
      rfl
    | @cons text' token' texts tokens h2 hs =>
      have he : operandsText (text :: text' :: texts) ++ fin =
          text ++ (',' :: ([' '] ++ (operandsText (text' :: texts) ++ fin))) := by
        simp [operandsText, List.intercalate]
      rw [he, h1.2 _ (endsWord_comma _), lex_comma, lex_gap_blanks _ _ (by simp [IsBlanks]), ih]
      rfl

/-- Commas between operands separate them (R80). -/
theorem operandList_intersperse (tokens : List Token) (h : ∀ t ∈ tokens, t ≠ .comma) :
    operandList (tokens.intersperse .comma) = .ok tokens := by
  have more : ∀ ts : List Token, (∀ t ∈ ts, t ≠ .comma) →
      moreOperands (ts.flatMap fun t => [.comma, t]) = .ok ts := by
    intro ts hts
    induction ts with
    | nil => rfl
    | cons t ts ih =>
      have ht := hts t (by simp)
      have := ih fun u hu => hts u (by simp [hu])
      cases t <;> simp_all [moreOperands, Functor.map, Except.map]
  have flat : ∀ (t : Token) (ts : List Token),
      (t :: ts).intersperse .comma = t :: ts.flatMap fun u => [.comma, u] := by
    intro t ts
    induction ts generalizing t with
    | nil => rfl
    | cons u ts ih => rw [List.intersperse_cons_cons, ih]; rfl
  cases tokens with
  | nil => rfl
  | cons t ts =>
    have ht := h t (by simp)
    rw [flat]
    cases t <;> simp_all [operandList, Functor.map, Except.map]

/-- A line of a keyword and nothing else (R79). -/
theorem assembleLine_bare (code : Char → Word) (lead text fin : List Char) (k : Keyword)
    (hl : IsBlanks lead) (hn : IsNameText text k.name) (hf : IsLineEnd fin) :
    assembleLine code (lead ++ text ++ fin) = assembleKeyword code k [] := by
  rw [assembleLine_keyword code lead text fin k hl hn (endsWord_end fin hf), lex_gap_end fin hf]
  rfl

/-- A line of a keyword and operands that read as these tokens (R79, R80). -/
theorem assembleLine_operands (code : Char → Word) (lead text gap fin : List Char) (texts : List (List Char))
    (tokens : List Token) (k : Keyword) (hl : IsBlanks lead) (hn : IsNameText text k.name) (hg : IsBlanks gap)
    (hgne : gap ≠ []) (hf : IsLineEnd fin) (ht : List.Forall₂ ReadsAs texts tokens) :
    assembleLine code (lead ++ text ++ gap ++ operandsText texts ++ fin) = assembleKeyword code k tokens := by
  have hc : ∀ t ∈ tokens, t ≠ .comma := by
    clear hn hf
    induction ht with
    | nil => simp
    | cons h _ ih => simp only [List.mem_cons, forall_eq_or_imp]; exact ⟨h.1, ih⟩
  have := assembleLine_keyword code lead text (gap ++ (operandsText texts ++ fin)) k hl hn
    (endsWord_blanks gap _ hg hgne)
  rw [lex_gap_blanks _ _ hg, lex_operands texts tokens ht fin hf] at this
  simp only [Bind.bind, Except.bind, operandList_intersperse tokens hc] at this
  simpa only [List.append_assoc] using this

/-- A line of a keyword and one operand. -/
theorem assembleLine_operand (code : Char → Word) (lead text gap operand fin : List Char) (token : Token)
    (k : Keyword) (hl : IsBlanks lead) (hn : IsNameText text k.name) (hg : IsBlanks gap) (hgne : gap ≠ [])
    (hf : IsLineEnd fin) (ht : ReadsAs operand token) :
    assembleLine code (lead ++ text ++ gap ++ operand ++ fin) = assembleKeyword code k [token] := by
  have := assembleLine_operands code lead text gap fin [operand] [token] k hl hn hg hgne hf (.cons ht .nil)
  rwa [show operandsText [operand] = operand by simp [operandsText, List.intercalate]] at this

/-- What a numeric operand denotes (R79). -/
theorem numberOf_text (text : List Char) (n : Nat) (h : IsNumberText text n) : numberOf (.word text) = .ok n := by
  simp [numberOf, (numberText_word text n h).2.2]

/-- The operand of STEPW and BYTE is one token, which denotes the number or the character's code (R79). -/
theorem numberOrCode_text (code : Char → Word) (text : List Char) (n : Nat)
    (h : IsNumberText text n ∨ IsCharText code text n) :
    ∃ token, ReadsAs text token ∧ numberOrCode code token = .ok n := by
  rcases h with h | ⟨c, rfl, rfl⟩
  · exact ⟨_, numberText_reads text n h, by simp [numberOrCode, numberOf_text text n h]⟩
  · exact ⟨_, char_reads c, rfl⟩

end Sys2Proof.Machine
end

