-- ==== Sys2Proof/Laws/PerInstr.lean ====
section
/-! SUPPORT. What holds of every command as syntax, one lemma for each constructor. -/

namespace Sys2Proof.Laws.LegalEncoding

/-- The command's word carries the command's opcode, one of the ten assigned, and its operand, and is no illegal
command (spec/30_encoding.md R70, R72, R77). -/
def Statement (i : Instr) : Prop :=
  opField (encode i) = opcode i ∧ dataField (encode i) = operand i ∧ (opcode i).toNat ≤ 0x09 ∧
    isLegal (encode i) = true

theorem nop : Statement .nop := by unfold Statement; decide

theorem start : Statement .start := by unfold Statement; decide

theorem finish : Statement .finish := by unfold Statement; decide

theorem abort : Statement .abort := by unfold Statement; decide

theorem clrerr : Statement .clrerr := by unfold Statement; decide

/-- The number of a laid-out word is OP·2^32 + DATA (R70). -/
theorem commandWord_toNat (op : BitVec 8) (data : Word) :
    (commandWord op data).toNat = op.toNat * 2 ^ 32 + data.toNat := by
  have h := data.isLt
  rw [commandWord, BitVec.toNat_append, ← Nat.shiftLeft_add_eq_or_of_lt h, Nat.shiftLeft_eq]

/-- The opcode field of a laid-out word is its opcode (R70). -/
theorem opField_commandWord (op : BitVec 8) (data : Word) : opField (commandWord op data) = op := by
  have h := data.isLt
  have h' := op.isLt
  apply BitVec.eq_of_toNat_eq
  rw [opField, BitVec.extractLsb'_toNat, commandWord_toNat, Nat.shiftRight_eq_div_pow]
  omega

/-- The operand field of a laid-out word is its operand (R70). -/
theorem dataField_commandWord (op : BitVec 8) (data : Word) : dataField (commandWord op data) = data := by
  have h := data.isLt
  apply BitVec.eq_of_toNat_eq
  rw [dataField, BitVec.extractLsb'_toNat, commandWord_toNat, Nat.shiftRight_eq_div_pow]
  omega

/-- A laid-out word's OP as a number (R70). -/
theorem opNumber_commandWord (op : BitVec 8) (data : Word) : opNumber (commandWord op data) = op.toNat := by
  have h := data.isLt
  rw [opNumber, commandWord_toNat]; omega

/-- A laid-out word's DATA as a number (R70). -/
theorem dataNumber_commandWord (op : BitVec 8) (data : Word) : dataNumber (commandWord op data) = data.toNat := by
  have h := data.isLt
  rw [dataNumber, commandWord_toNat]; omega

/-- A command that takes a whole word is legal with every operand (R73). -/
theorem word_operand (op : BitVec 8) (data : Word) (h : op ∈ [0x01#8, 0x02#8, 0x03#8, 0x05#8]) :
    isLegal (commandWord op data) = true := by
  simp only [isLegal, isIllegal, hasReservedOp, hasStrayOperand, hasWideByte, opNumber_commandWord]
  fin_cases h <;> simp

theorem setw (data : Word) : Statement (.setw data) :=
  ⟨opField_commandWord _ _, dataField_commandWord _ _, by simp [opcode], word_operand _ _ (by simp [opcode])⟩

theorem setp (data : Word) : Statement (.setp data) :=
  ⟨opField_commandWord _ _, dataField_commandWord _ _, by simp [opcode], word_operand _ _ (by simp [opcode])⟩

theorem seti (data : Word) : Statement (.seti data) :=
  ⟨opField_commandWord _ _, dataField_commandWord _ _, by simp [opcode], word_operand _ _ (by simp [opcode])⟩

theorem stepw (data : Word) : Statement (.stepw data) :=
  ⟨opField_commandWord _ _, dataField_commandWord _ _, by simp [opcode], word_operand _ _ (by simp [opcode])⟩

theorem byte (data : Byte) : Statement (.byte data) := by
  refine ⟨opField_commandWord _ _, dataField_commandWord _ _, by simp [opcode], ?_⟩
  have h := data.isLt
  simp only [encode, isLegal, isIllegal, hasReservedOp, hasStrayOperand, hasWideByte, opNumber_commandWord,
    dataNumber_commandWord, opcode, operand]
  simp [BitVec.toNat_setWidth]
  omega

end Sys2Proof.Laws.LegalEncoding
end

