-- ==== Sys2Proof/Laws/Decode.lean ====
section
/-! SUPPORT. The decoder on a word laid out from its fields, and every word as such a word. -/

namespace Sys2Proof

/-- The byte operand of a laid-out word (spec/30_encoding.md R71). -/
theorem byteField_commandWord (op : BitVec 8) (data : Word) :
    byteField (commandWord op data) = data.extractLsb' 0 8 := by
  have h := data.isLt
  apply BitVec.eq_of_toNat_eq
  rw [byteField, BitVec.extractLsb'_toNat, Laws.LegalEncoding.commandWord_toNat, BitVec.extractLsb'_toNat,
    Nat.shiftRight_zero, Nat.shiftRight_zero]
  omega

/-- Every word is laid out from its two fields (R70). -/
theorem commandWord_fields (w : CommandWord) : commandWord (opField w) (dataField w) = w := by
  have h := w.isLt
  apply BitVec.eq_of_toNat_eq
  rw [Laws.LegalEncoding.commandWord_toNat, opField, dataField, BitVec.extractLsb'_toNat, BitVec.extractLsb'_toNat,
    Nat.shiftRight_eq_div_pow]
  omega

/-- Everything the decoder can do, over a word's two fields (R72, R73). -/
theorem decode_commandWord (op : BitVec 8) (data : Word) :
    decode (commandWord op data) =
      let bare (i : Instr) := if data = 0 then Except.ok i else .error IllegalWord.operandNotZero
      if op = 0x00 then bare .nop
      else if op = 0x01 then .ok (.setw data)
      else if op = 0x02 then .ok (.setp data)
      else if op = 0x03 then .ok (.seti data)
      else if op = 0x04 then bare .start
      else if op = 0x05 then .ok (.stepw data)
      else if op = 0x06 then
        (if data.extractLsb' 8 24 = 0 then .ok (.byte (data.extractLsb' 0 8)) else .error .byteTooWide)
      else if op = 0x07 then bare .finish
      else if op = 0x08 then bare .abort
      else if op = 0x09 then bare .clrerr
      else .error .reservedOpcode := by
  simp only [decode, decodeBare, decodeByte, Laws.LegalEncoding.opField_commandWord,
    Laws.LegalEncoding.dataField_commandWord, byteField_commandWord]

end Sys2Proof
end

