-- ==== Sys2Proof/Laws/Engine.lean ====
section
/-! SUPPORT. The step engine bit by bit: what each bit of the mask, of one iteration and of the shifter is. -/

namespace Sys2Proof.Machine

/-- Bit i of mask(w) is one exactly below w (R102). -/
theorem mask_getLsbD (w i : Nat) : (mask w).getLsbD i = (decide (i < 32) && decide (i < w)) := by
  simp [mask, BitVec.getLsbD_ofNat, Nat.testBit_two_pow_sub_one]

/-- A masked value keeps its bits below w and has none above (R102). -/
theorem and_mask_getLsbD (v : Word) (w i : Nat) : (v &&& mask w).getLsbD i = (v.getLsbD i && decide (i < w)) := by
  rw [BitVec.getLsbD_and, mask_getLsbD]
  by_cases h : i < 32
  · simp [h]
  · simp [BitVec.getLsbD_of_ge v i (by omega)]

/-- Everything one iteration does: bit i of the new register value is the bit below it, XORed with the polynomial's
bit when the MSB test succeeds, and nothing at or above w (R104, R108). -/
theorem shift1_getLsbD (r poly : Word) (w i : Nat) :
    (shift1 r poly w).getLsbD i =
      (decide (i < 32) && decide (i < w) &&
        ((decide (1 ≤ i) && r.getLsbD (i - 1)) ^^ (r.getLsbD (w - 1) && poly.getLsbD i))) := by
  have hm : ∀ v : Word, (v &&& mask w).getLsbD i = (v.getLsbD i && decide (i < w)) := fun v => and_mask_getLsbD v w i
  unfold shift1
  by_cases hi : i < 32
  · split <;> rename_i h <;> rw [hm] <;> rcases i with _ | i <;>
      simp [h, hi, Bool.and_comm]
    all_goals rw [BitVec.getLsbD_eq_getElem (by omega)]
  · split <;> rw [hm] <;> simp [hi, BitVec.getLsbD_of_ge _ i (Nat.not_lt.mp hi)]

/-- SR_0 (R101). -/
theorem shifter_zero (word poly seed : Word) (w : Nat) :
    shifter word poly seed w 0 = (seed ^^^ word) &&& mask w := rfl

/-- SR_{k+1} from SR_k (R101). -/
theorem shifter_succ (word poly seed : Word) (w k : Nat) :
    shifter word poly seed w (k + 1) = shift1 (shifter word poly seed w k) poly w := rfl

/-- Every SR_k is masked: no bit at or above w (R32, R107). -/
theorem shifter_high (word poly seed : Word) (w k i : Nat) (h : w ≤ i) :
    (shifter word poly seed w k).getLsbD i = false := by
  cases k with
  | zero => simp [shifter_zero, mask_getLsbD, Nat.not_lt.mpr h]
  | succ k => simp [shifter_succ, shift1_getLsbD, Nat.not_lt.mpr h]

/-- The trace begins with SR_0, ends with the result and has w + 1 values (spec/10_state.md R32). -/
theorem crcTrace_length (word poly seed : Word) (w : Nat) : (crcTrace word poly seed w).length = w + 1 := by
  simp [crcTrace]

/-- The k-th value of the trace is SR_k. -/
theorem crcTrace_get (word poly seed : Word) (w k : Nat) (h : k < (crcTrace word poly seed w).length) :
    (crcTrace word poly seed w)[k] = shifter word poly seed w k := by
  simp [crcTrace]

end Sys2Proof.Machine
end

