-- ==== Sys2Proof/Laws/State.lean ====
section
/-! SUPPORT. One lemma for each field and each update of the state, so that no later proof unfolds a record update. -/

namespace Sys2Proof.Machine

@[simp] theorem Block.setWidth_width (b : Block) (v : BitVec 6) : (b.setWidth v).width = v := rfl
@[simp] theorem Block.setWidth_poly (b : Block) (v : BitVec 6) : (b.setWidth v).poly = b.poly := rfl
@[simp] theorem Block.setWidth_init (b : Block) (v : BitVec 6) : (b.setWidth v).init = b.init := rfl
@[simp] theorem Block.setWidth_crc (b : Block) (v : BitVec 6) : (b.setWidth v).crc = b.crc := rfl
@[simp] theorem Block.setWidth_status (b : Block) (v : BitVec 6) : (b.setWidth v).status = b.status := rfl
@[simp] theorem Block.setWidth_b0 (b : Block) (v : BitVec 6) : (b.setWidth v).b0 = b.b0 := rfl
@[simp] theorem Block.setWidth_b1 (b : Block) (v : BitVec 6) : (b.setWidth v).b1 = b.b1 := rfl
@[simp] theorem Block.setWidth_b2 (b : Block) (v : BitVec 6) : (b.setWidth v).b2 = b.b2 := rfl

@[simp] theorem Block.setPoly_width (b : Block) (v : Word) : (b.setPoly v).width = b.width := rfl
@[simp] theorem Block.setPoly_poly (b : Block) (v : Word) : (b.setPoly v).poly = v := rfl
@[simp] theorem Block.setPoly_init (b : Block) (v : Word) : (b.setPoly v).init = b.init := rfl
@[simp] theorem Block.setPoly_crc (b : Block) (v : Word) : (b.setPoly v).crc = b.crc := rfl
@[simp] theorem Block.setPoly_status (b : Block) (v : Word) : (b.setPoly v).status = b.status := rfl
@[simp] theorem Block.setPoly_b0 (b : Block) (v : Word) : (b.setPoly v).b0 = b.b0 := rfl
@[simp] theorem Block.setPoly_b1 (b : Block) (v : Word) : (b.setPoly v).b1 = b.b1 := rfl
@[simp] theorem Block.setPoly_b2 (b : Block) (v : Word) : (b.setPoly v).b2 = b.b2 := rfl

@[simp] theorem Block.setInit_width (b : Block) (v : Word) : (b.setInit v).width = b.width := rfl
@[simp] theorem Block.setInit_poly (b : Block) (v : Word) : (b.setInit v).poly = b.poly := rfl
@[simp] theorem Block.setInit_init (b : Block) (v : Word) : (b.setInit v).init = v := rfl
@[simp] theorem Block.setInit_crc (b : Block) (v : Word) : (b.setInit v).crc = b.crc := rfl
@[simp] theorem Block.setInit_status (b : Block) (v : Word) : (b.setInit v).status = b.status := rfl
@[simp] theorem Block.setInit_b0 (b : Block) (v : Word) : (b.setInit v).b0 = b.b0 := rfl
@[simp] theorem Block.setInit_b1 (b : Block) (v : Word) : (b.setInit v).b1 = b.b1 := rfl
@[simp] theorem Block.setInit_b2 (b : Block) (v : Word) : (b.setInit v).b2 = b.b2 := rfl

@[simp] theorem Block.setCrc_width (b : Block) (v : Word) : (b.setCrc v).width = b.width := rfl
@[simp] theorem Block.setCrc_poly (b : Block) (v : Word) : (b.setCrc v).poly = b.poly := rfl
@[simp] theorem Block.setCrc_init (b : Block) (v : Word) : (b.setCrc v).init = b.init := rfl
@[simp] theorem Block.setCrc_crc (b : Block) (v : Word) : (b.setCrc v).crc = v := rfl
@[simp] theorem Block.setCrc_status (b : Block) (v : Word) : (b.setCrc v).status = b.status := rfl
@[simp] theorem Block.setCrc_b0 (b : Block) (v : Word) : (b.setCrc v).b0 = b.b0 := rfl
@[simp] theorem Block.setCrc_b1 (b : Block) (v : Word) : (b.setCrc v).b1 = b.b1 := rfl
@[simp] theorem Block.setCrc_b2 (b : Block) (v : Word) : (b.setCrc v).b2 = b.b2 := rfl

@[simp] theorem Block.setStatus_width (b : Block) (v : Status) : (b.setStatus v).width = b.width := rfl
@[simp] theorem Block.setStatus_poly (b : Block) (v : Status) : (b.setStatus v).poly = b.poly := rfl
@[simp] theorem Block.setStatus_init (b : Block) (v : Status) : (b.setStatus v).init = b.init := rfl
@[simp] theorem Block.setStatus_crc (b : Block) (v : Status) : (b.setStatus v).crc = b.crc := rfl
@[simp] theorem Block.setStatus_status (b : Block) (v : Status) : (b.setStatus v).status = v := rfl
@[simp] theorem Block.setStatus_b0 (b : Block) (v : Status) : (b.setStatus v).b0 = b.b0 := rfl
@[simp] theorem Block.setStatus_b1 (b : Block) (v : Status) : (b.setStatus v).b1 = b.b1 := rfl
@[simp] theorem Block.setStatus_b2 (b : Block) (v : Status) : (b.setStatus v).b2 = b.b2 := rfl

@[simp] theorem Status.opened_active (t : Status) : (t.opened).active = true := rfl
@[simp] theorem Status.opened_valid (t : Status) : (t.opened).valid = false := rfl
@[simp] theorem Status.opened_bcnt (t : Status) : (t.opened).bcnt = 0 := rfl
@[simp] theorem Status.opened_errCfg (t : Status) : (t.opened).errCfg = t.errCfg := rfl
@[simp] theorem Status.opened_errSeq (t : Status) : (t.opened).errSeq = t.errSeq := rfl
@[simp] theorem Status.opened_errIo (t : Status) : (t.opened).errIo = t.errIo := rfl
@[simp] theorem Status.opened_errIll (t : Status) : (t.opened).errIll = t.errIll := rfl

@[simp] theorem Status.finished_active (t : Status) : (t.finished).active = false := rfl
@[simp] theorem Status.finished_valid (t : Status) : (t.finished).valid = true := rfl
@[simp] theorem Status.finished_bcnt (t : Status) : (t.finished).bcnt = 0 := rfl
@[simp] theorem Status.finished_errCfg (t : Status) : (t.finished).errCfg = t.errCfg := rfl
@[simp] theorem Status.finished_errSeq (t : Status) : (t.finished).errSeq = t.errSeq := rfl
@[simp] theorem Status.finished_errIo (t : Status) : (t.finished).errIo = t.errIo := rfl
@[simp] theorem Status.finished_errIll (t : Status) : (t.finished).errIll = t.errIll := rfl

@[simp] theorem Status.clearErrors_active (t : Status) : (t.clearErrors).active = t.active := rfl
@[simp] theorem Status.clearErrors_valid (t : Status) : (t.clearErrors).valid = t.valid := rfl
@[simp] theorem Status.clearErrors_bcnt (t : Status) : (t.clearErrors).bcnt = t.bcnt := rfl
@[simp] theorem Status.clearErrors_errCfg (t : Status) : (t.clearErrors).errCfg = false := rfl
@[simp] theorem Status.clearErrors_errSeq (t : Status) : (t.clearErrors).errSeq = false := rfl
@[simp] theorem Status.clearErrors_errIo (t : Status) : (t.clearErrors).errIo = false := rfl
@[simp] theorem Status.clearErrors_errIll (t : Status) : (t.clearErrors).errIll = false := rfl

@[simp] theorem Status.withBcnt_active (t : Status) (n : BitVec 2) : (t.withBcnt n).active = t.active := rfl
@[simp] theorem Status.withBcnt_valid (t : Status) (n : BitVec 2) : (t.withBcnt n).valid = t.valid := rfl
@[simp] theorem Status.withBcnt_bcnt (t : Status) (n : BitVec 2) : (t.withBcnt n).bcnt = n := rfl
@[simp] theorem Status.withBcnt_errCfg (t : Status) (n : BitVec 2) : (t.withBcnt n).errCfg = t.errCfg := rfl
@[simp] theorem Status.withBcnt_errSeq (t : Status) (n : BitVec 2) : (t.withBcnt n).errSeq = t.errSeq := rfl
@[simp] theorem Status.withBcnt_errIo (t : Status) (n : BitVec 2) : (t.withBcnt n).errIo = t.errIo := rfl
@[simp] theorem Status.withBcnt_errIll (t : Status) (n : BitVec 2) : (t.withBcnt n).errIll = t.errIll := rfl

@[simp] theorem Status.raise_active (t : Status) (e : ErrorKind) : (t.raise e).active = false := rfl
@[simp] theorem Status.raise_valid (t : Status) (e : ErrorKind) : (t.raise e).valid = false := rfl
@[simp] theorem Status.raise_bcnt (t : Status) (e : ErrorKind) : (t.raise e).bcnt = 0 := rfl
@[simp] theorem Status.raise_errCfg (t : Status) (e : ErrorKind) :
    (t.raise e).errCfg = (decide (e = .cfg) || t.errCfg) := by
  cases e <;> rfl
@[simp] theorem Status.raise_errSeq (t : Status) (e : ErrorKind) :
    (t.raise e).errSeq = (decide (e = .seq) || t.errSeq) := by
  cases e <;> rfl
@[simp] theorem Status.raise_errIo (t : Status) (e : ErrorKind) :
    (t.raise e).errIo = (decide (e = .io) || t.errIo) := by
  cases e <;> rfl
@[simp] theorem Status.raise_errIll (t : Status) (e : ErrorKind) :
    (t.raise e).errIll = (decide (e = .ill) || t.errIll) := by
  cases e <;> rfl

@[simp] theorem Block.raise_width (b : Block) (e : ErrorKind) : (b.raise e).width = b.width := rfl
@[simp] theorem Block.raise_poly (b : Block) (e : ErrorKind) : (b.raise e).poly = b.poly := rfl
@[simp] theorem Block.raise_init (b : Block) (e : ErrorKind) : (b.raise e).init = b.init := rfl
@[simp] theorem Block.raise_crc (b : Block) (e : ErrorKind) : (b.raise e).crc = b.crc := rfl
@[simp] theorem Block.raise_b0 (b : Block) (e : ErrorKind) : (b.raise e).b0 = b.b0 := rfl
@[simp] theorem Block.raise_b1 (b : Block) (e : ErrorKind) : (b.raise e).b1 = b.b1 := rfl
@[simp] theorem Block.raise_b2 (b : Block) (e : ErrorKind) : (b.raise e).b2 = b.b2 := rfl
@[simp] theorem Block.raise_status (b : Block) (e : ErrorKind) : (b.raise e).status = b.status.raise e := rfl

@[simp] theorem Block.clearErrors_width (b : Block) : b.clearErrors.width = b.width := rfl
@[simp] theorem Block.clearErrors_poly (b : Block) : b.clearErrors.poly = b.poly := rfl
@[simp] theorem Block.clearErrors_init (b : Block) : b.clearErrors.init = b.init := rfl
@[simp] theorem Block.clearErrors_crc (b : Block) : b.clearErrors.crc = b.crc := rfl
@[simp] theorem Block.clearErrors_b0 (b : Block) : b.clearErrors.b0 = b.b0 := rfl
@[simp] theorem Block.clearErrors_b1 (b : Block) : b.clearErrors.b1 = b.b1 := rfl
@[simp] theorem Block.clearErrors_b2 (b : Block) : b.clearErrors.b2 = b.b2 := rfl
@[simp] theorem Block.clearErrors_status (b : Block) : b.clearErrors.status = b.status.clearErrors := rfl

@[simp] theorem Block.fold_width (b : Block) (word : Word) : (b.fold word).width = b.width := rfl
@[simp] theorem Block.fold_poly (b : Block) (word : Word) : (b.fold word).poly = b.poly := rfl
@[simp] theorem Block.fold_init (b : Block) (word : Word) : (b.fold word).init = b.init := rfl
@[simp] theorem Block.fold_status (b : Block) (word : Word) : (b.fold word).status = b.status := rfl
@[simp] theorem Block.fold_b0 (b : Block) (word : Word) : (b.fold word).b0 = b.b0 := rfl
@[simp] theorem Block.fold_b1 (b : Block) (word : Word) : (b.fold word).b1 = b.b1 := rfl
@[simp] theorem Block.fold_b2 (b : Block) (word : Word) : (b.fold word).b2 = b.b2 := rfl
@[simp] theorem Block.fold_crc (b : Block) (word : Word) :
    (b.fold word).crc = crcStep word b.poly b.crc b.width.toNat := rfl

@[simp] theorem Block.openChain_width (b : Block) : b.openChain.width = b.width := rfl
@[simp] theorem Block.openChain_poly (b : Block) : b.openChain.poly = b.poly := rfl
@[simp] theorem Block.openChain_init (b : Block) : b.openChain.init = b.init := rfl
@[simp] theorem Block.openChain_b0 (b : Block) : b.openChain.b0 = b.b0 := rfl
@[simp] theorem Block.openChain_b1 (b : Block) : b.openChain.b1 = b.b1 := rfl
@[simp] theorem Block.openChain_b2 (b : Block) : b.openChain.b2 = b.b2 := rfl
@[simp] theorem Block.openChain_crc (b : Block) : b.openChain.crc = b.init := rfl
@[simp] theorem Block.openChain_status (b : Block) : b.openChain.status = b.status.opened := rfl

@[simp] theorem Block.storeByte_width (b : Block) (v : Byte) : (b.storeByte v).width = b.width := by
  unfold Block.storeByte; split <;> [rfl; split <;> rfl]
@[simp] theorem Block.storeByte_poly (b : Block) (v : Byte) : (b.storeByte v).poly = b.poly := by
  unfold Block.storeByte; split <;> [rfl; split <;> rfl]
@[simp] theorem Block.storeByte_init (b : Block) (v : Byte) : (b.storeByte v).init = b.init := by
  unfold Block.storeByte; split <;> [rfl; split <;> rfl]
@[simp] theorem Block.storeByte_crc (b : Block) (v : Byte) : (b.storeByte v).crc = b.crc := by
  unfold Block.storeByte; split <;> [rfl; split <;> rfl]
@[simp] theorem Block.storeByte_status (b : Block) (v : Byte) : (b.storeByte v).status = b.status := by
  unfold Block.storeByte; split <;> [rfl; split <;> rfl]

@[simp] theorem State.withBlock_block (s : State) (b : Block) : (s.withBlock b).block = b := rfl
@[simp] theorem State.withBlock_port (s : State) (b : Block) : (s.withBlock b).port = s.port := rfl
@[simp] theorem State.withBlock_draws (s : State) (b : Block) : (s.withBlock b).draws = s.draws := rfl
@[simp] theorem State.takeEvent_block (s : State) : s.takeEvent.block = s.block := rfl
@[simp] theorem State.takeEvent_port (s : State) : s.takeEvent.port = s.port.tail := rfl
@[simp] theorem State.takeEvent_draws (s : State) : s.takeEvent.draws = s.draws := rfl
@[simp] theorem State.present_block (s : State) (e : HostEvent) : (s.present e).block = s.block := rfl
@[simp] theorem State.present_port (s : State) (e : HostEvent) : (s.present e).port = e :: s.port := rfl
@[simp] theorem State.present_draws (s : State) (e : HostEvent) : (s.present e).draws = s.draws := rfl

end Sys2Proof.Machine
end

