-- ==== Sys2Proof/Laws/Ops.lean ====
section
/-! SUPPORT. One lemma for each shared operation, saying everything it can do. -/

namespace Sys2Proof.Machine

/-- ERR ≠ 0 after an error is raised (R203). -/
@[simp] theorem Status.errorSet_raise (t : Status) (e : ErrorKind) : (t.raise e).errorSet = true := by
  cases e <;> simp [Status.errorSet]

/-- ERR = 0 after CLRERR (R181). -/
@[simp] theorem Status.errorSet_clearErrors (t : Status) : t.clearErrors.errorSet = false := rfl

/-- Opening a chain leaves the error bits (R131). -/
@[simp] theorem Status.errorSet_opened (t : Status) : t.opened.errorSet = t.errorSet := rfl

/-- Closing a chain leaves the error bits (R151). -/
@[simp] theorem Status.errorSet_finished (t : Status) : t.finished.errorSet = t.errorSet := rfl

/-- Counting bytes leaves the error bits (R141). -/
@[simp] theorem Status.errorSet_withBcnt (t : Status) (n : BitVec 2) : (t.withBcnt n).errorSet = t.errorSet := rfl

/-- Raising an error sets its own bit and keeps the others (R203). -/
theorem Status.has_raise (t : Status) (e f : ErrorKind) : (t.raise e).has f = (decide (e = f) || t.has f) := by
  cases e <;> cases f <;> simp [Status.has]

/-- ERR ≠ 0 says that some error is recorded (R26). -/
theorem Status.errorSet_iff_has (t : Status) : t.errorSet = true ↔ ∃ e, t.has e = true := by
  constructor
  · intro h
    simp only [Status.errorSet, Bool.or_eq_true] at h
    rcases h with ((h | h) | h) | h
    · exact ⟨.cfg, h⟩
    · exact ⟨.seq, h⟩
    · exact ⟨.io, h⟩
    · exact ⟨.ill, h⟩
  · rintro ⟨e, h⟩
    cases e <;> simp only [Status.has] at h <;> simp [Status.errorSet, h]

/-- The byte count is one of four. -/
theorem bcnt_cases (n : BitVec 2) : n = 0 ∨ n = 1 ∨ n = 2 ∨ n = 3 := by
  revert n; decide

/-- Everything FINISH's step on the partial group can do: at most CRC changes, and only while bytes are buffered
(R151). -/
theorem Block.foldPartial_eq (b : Block) :
    b.foldPartial = b ∧ b.status.bcnt = 0 ∨
      ∃ word, partialWord b = some word ∧ b.foldPartial = b.fold word ∧ b.status.bcnt ≠ 0 := by
  rcases bcnt_cases b.status.bcnt with h | h | h | h <;> simp [Block.foldPartial, partialWord, h]

/-- Everything FINISH can do inside a chain (R151). -/
theorem Block.closeChain_eq (b : Block) :
    ∃ v, b.closeChain = (b.setCrc v).setStatus b.status.finished ∧
      (v = b.crc ∧ b.status.bcnt = 0 ∨
        ∃ word, partialWord b = some word ∧ v = crcStep word b.poly b.crc b.width.toNat ∧ b.status.bcnt ≠ 0) := by
  rcases b.foldPartial_eq with ⟨h, h0⟩ | ⟨word, hw, h, h0⟩
  · exact ⟨b.crc, by rw [Block.closeChain, h]; rfl, .inl ⟨rfl, h0⟩⟩
  · exact ⟨_, by rw [Block.closeChain, h]; rfl, .inr ⟨word, hw, rfl, h0⟩⟩

/-- Everything BYTE can do inside a chain: the fourth byte folds the group, another is buffered (R141). -/
theorem Block.feedByte_eq (b : Block) (v : Byte) :
    (b.status.bcnt = 3 ∧
      b.feedByte v = (b.fold (groupWord b.b0 b.b1 b.b2 v)).setStatus (b.status.withBcnt 0)) ∨
    (b.status.bcnt ≠ 3 ∧
      b.feedByte v = (b.storeByte v).setStatus (b.status.withBcnt (b.status.bcnt + 1))) := by
  by_cases h : b.status.bcnt = 3
  · exact .inl ⟨h, if_pos h⟩
  · exact .inr ⟨h, if_neg h⟩

/-- A raised error is a next state, the machine goes on (R203, R208). -/
theorem raiseError_eq (e : ErrorKind) (s : State) : raiseError e s = .next (s.withBlock (s.block.raise e)) := rfl

/-- Everything a command can do to the machine: it answers a next state in which only the block has changed, by its
own effect or by raising an error. -/
theorem exec_next (i : Instr) (s : State) : ∃ b, exec i s = .next (s.withBlock b) := by
  cases i <;> simp only [exec, execNop, execSetw, execSetp, execSeti, execStart, execStepw, execByte, execFinish,
    execAbort, execClrerr, complete, raiseError, unchanged] <;> (repeat' split) <;>
    exact ⟨_, rfl⟩

end Sys2Proof.Machine
end

