-- ==== Sys2Proof/Laws/Step.lean ====
section
/-! SUPPORT. Said once: what one command and one step can do, and how a run goes on from a step. -/

namespace Sys2Proof.Machine

/-- Everything a command can do, by the first check that decides (spec/60_exceptions.md R207). -/
theorem exec_cases {i : Instr} {s t : State} (h : exec i s = .next t) :
    (lockedOut i s.block.status = true ∧ t = s) ∨
    (lockedOut i s.block.status = false ∧ sequenceError i s.block.status = true ∧
      t = s.withBlock (s.block.raise .seq)) ∨
    (lockedOut i s.block.status = false ∧ sequenceError i s.block.status = false ∧ badWidth i = true ∧
      t = s.withBlock (s.block.raise .cfg)) ∨
    (lockedOut i s.block.status = false ∧ sequenceError i s.block.status = false ∧ badWidth i = false ∧
      t = s.withBlock (ownEffect i s.block)) := by
  cases i <;>
    simp only [exec, execNop, execSetw, execSetp, execSeti, execStart, execStepw, execByte, execFinish, execAbort,
      execClrerr, complete, unchanged, raiseError] at h <;>
    simp only [lockedOut, sequenceError, badWidth, ownEffect] <;>
    (repeat' split at h) <;> cases h <;> simp_all [State.withBlock]

/-- Everything a step can do: hold the state, reset the block, raise ERR_ILL, or run a command (R12, R77, R240). -/
theorem step_cases (s : State) :
    (s.port = [] ∧ step s = .next s) ∨
    (∃ rest, s.port = .reset :: rest ∧
      step s = .next { block := Block.afterReset s.draws, port := rest, draws := s.draws + 1 }) ∨
    (∃ w rest why, s.port = .command w :: rest ∧ decode w = .error why ∧
      step s = raiseError .ill { s with port := rest }) ∨
    (∃ w rest i, s.port = .command w :: rest ∧ decode w = .ok i ∧ step s = exec i { s with port := rest }) := by
  rcases hp : s.port with _ | ⟨e, rest⟩
  · exact .inl ⟨rfl, by simp [step, nextEvent, hp, performIdle, unchanged]⟩
  · cases e with
    | reset => exact .inr (.inl ⟨rest, rfl, by simp [step, nextEvent, hp, performReset, State.takeEvent]⟩)
    | command w =>
      cases hd : decode w with
      | error why =>
        exact .inr (.inr (.inl ⟨w, rest, why, rfl, hd, by
          simp [step, nextEvent, hp, hd, performIllegal, State.takeEvent]⟩))
      | ok i =>
        exact .inr (.inr (.inr ⟨w, rest, i, rfl, hd, by simp [step, nextEvent, hp, hd, State.takeEvent]⟩))

/-- A run goes on from the state a step gives. -/
theorem run_of_step (n : Nat) {s t : State} (h : step s = .next t) :
    Host.Core.run Sys2Proof.core (n + 1) s = Host.Core.run Sys2Proof.core n t := by
  have h' : Sys2Proof.core.step s = .next t := h
  simp only [Host.Core.run, h']

end Sys2Proof.Machine
end

