-- ==== Sys2Proof/Tests/Slice0.lean ====
section
/-! SUPPORT. Tests of one step each, their expected values taken from spec/95_test_vectors.md or worked out from the
rule named; decoding tests with words written out from spec/30_encoding.md; the smoke test of WellFormed; and, for
every statement with hypotheses, a witness that meets them. -/

open Sys2Proof Sys2Proof.Machine

namespace Sys2Proof.Tests

/-- A block with the default configuration (R33), a CRC and a STATUS. -/
def blockWith (crc : Word) (t : Status) : Block :=
  { width := 32, poly := 0x04C11DB7, init := 0xFFFFFFFF, crc := crc, status := t, b0 := 0x31, b1 := 0x32, b2 := 0x33 }

/-- No chain open, no error. -/
def idle : State := { block := blockWith 0x5 Status.clear, port := [], draws := 0 }

/-- A chain open with n bytes buffered. -/
def chain (n : BitVec 2) : State :=
  { block := blockWith 0xFFFFFFFF { Status.clear with active := true, bcnt := n }, port := [], draws := 0 }

/-- A chain finished. -/
def finished : State := { block := blockWith 0x7 { Status.clear with valid := true }, port := [], draws := 0 }

/-- ERR_CFG recorded, STATUS = 0x10. -/
def locked : State := { block := blockWith 0x9 { Status.clear with errCfg := true }, port := [], draws := 0 }

/-- The 8-bit configuration of V1, a chain open. -/
def chain8 : State :=
  { block := { blockWith 0xFF { Status.clear with active := true } with width := 8, poly := 0xCB }, port := [], draws := 0 }

/-- STATUS_OUT after an outcome. -/
def statusAfter : Host.Outcome State Fault Refusal → Option (BitVec 8)
  | .next s => some s.block.ports.statusOut
  | .fault _ => none
  | .refused _ => none

/-- CRC_OUT after an outcome. -/
def crcAfter : Host.Outcome State Fault Refusal → Option Word
  | .next s => some s.block.ports.crcOut
  | .fault _ => none
  | .refused _ => none

/-- WIDTH_OUT, POLY_OUT and INIT_OUT after an outcome. -/
def configAfter : Host.Outcome State Fault Refusal → Option (BitVec 6 × Word × Word)
  | .next s => some (s.block.ports.widthOut, s.block.ports.polyOut, s.block.ports.initOut)
  | .fault _ => none
  | .refused _ => none

/-- A sample map from characters to codes. -/
def sampleCode (c : Char) : Word := BitVec.ofNat 32 c.toNat

/-! ### WellFormed: one ill-formed word for each check (R76, R74, R75; E7, E9, E11) -/

theorem test_reserved_op_is_illegal : isLegal 0x0A00000000 = false ∧ hasReservedOp 0x0A00000000 = true := by decide
theorem test_stray_operand_is_illegal : isLegal 0x0000000001 = false ∧ hasStrayOperand 0x0000000001 = true := by decide
theorem test_wide_byte_is_illegal : isLegal 0x0600000100 = false ∧ hasWideByte 0x0600000100 = true := by decide
theorem test_legal_words : isLegal 0x0000000000 = true ∧ isLegal 0x06000000FF = true ∧ isLegal 0x0100000000 = true := by
  decide

/-! ### Decoding: words written out bit by bit, OP in the top eight bits (R70, R72; the words of P1, P3, P4, P5) -/

theorem test_decode_nop : decode 0b0000000000000000000000000000000000000000 = .ok .nop := by decide
theorem test_decode_setw : decode 0b0000000100000000000000000000000000001000 = .ok (.setw 8) := by decide
theorem test_decode_setp : decode 0b0000001000000000000000000001000000100001 = .ok (.setp 0x1021) := by decide
theorem test_decode_seti : decode 0b0000001100000000000000001111111111111111 = .ok (.seti 0xFFFF) := by decide
theorem test_decode_start : decode 0b0000010000000000000000000000000000000000 = .ok .start := by decide
theorem test_decode_stepw : decode 0b0000010110000000000000000000000001000001 = .ok (.stepw 0x80000041) := by decide
theorem test_decode_byte : decode 0b0000011000000000000000000000000000110101 = .ok (.byte 0x35) := by decide
theorem test_decode_finish : decode 0b0000011100000000000000000000000000000000 = .ok .finish := by decide
theorem test_decode_abort : decode 0b0000100000000000000000000000000000000000 = .ok .abort := by decide
theorem test_decode_clrerr : decode 0b0000100100000000000000000000000000000000 = .ok .clrerr := by decide
theorem test_decode_rejects_by_name :
    decode 0xFFFFFFFFFF = .error .reservedOpcode ∧ decode 0x0400000001 = .error .operandNotZero ∧
      decode 0x0680000000 = .error .byteTooWide := by decide
theorem test_encode_words :
    encode (.setp 0xCB) = 0x02000000CB ∧ encode (.byte 0x41) = 0x0600000041 ∧ encode .clrerr = 0x0900000000 := by decide
theorem test_table_word : decodeTableWord 40 0x0300000000 = some (.seti 0) ∧ decodeTableWord 40 0x0A00000000 = none := by
  decide

/-! ### The step engine (V1, V2, and vectors S6, S16, S18, S20, S21) -/

theorem test_v1_trace :
    crcTrace 0xC1 0xCB 0xFF 8 = [0x3E, 0x7C, 0xF8, 0x3B, 0x76, 0xEC, 0x13, 0x26, 0x4C] := by decide
theorem test_small_vectors :
    crcStep 0x263A 0xCB 0xFF 8 = 0x21 ∧ crcStep 0x5A 0x09 0 7 = 0x27 ∧ crcStep 3 3 0 2 = 2 := by decide
theorem test_s18_width_16 : crcStep 0x41 0x1021 0xFFFF 16 = 0x45EA := by decide +kernel
theorem test_v2_width_32 : crcStep 0x41 0x04C11DB7 0xFFFFFFFF 32 = 0xF743B0BB := by decide +kernel
theorem test_s16_bit_31_shifted_out : crcStep 0x80000000 0x04C11DB7 0 32 = 0xA6E63D1D := by decide +kernel

/-! ### One step of each command -/

/-- E30. -/
theorem test_nop_leaves_status : statusAfter (exec .nop (chain 2)) = some 0x09 := by decide
/-- E20. -/
theorem test_setw_under_the_lock :
    configAfter (exec (.setw 8) locked) = some (8, 0x04C11DB7, 0xFFFFFFFF) ∧
      statusAfter (exec (.setw 8) locked) = some 0x10 := by decide
/-- E3, E27: no aliasing of 65 to width 1; ERR_SEQ before ERR_CFG. -/
theorem test_setw_errors :
    statusAfter (exec (.setw 65) idle) = some 0x10 ∧ configAfter (exec (.setw 65) idle) = some (32, 0x04C11DB7, 0xFFFFFFFF) ∧
      statusAfter (exec (.setw 0) (chain 0)) = some 0x20 := by decide
/-- E29. -/
theorem test_setp_keeps_a_result :
    statusAfter (exec (.setp 0xCB) finished) = some 0x02 ∧
      configAfter (exec (.setp 0xCB) finished) = some (32, 0xCB, 0xFFFFFFFF) := by decide
/-- E16. -/
theorem test_setp_in_a_chain :
    statusAfter (exec (.setp 0xCB) (chain 0)) = some 0x20 ∧
      configAfter (exec (.setp 0xCB) (chain 0)) = some (32, 0x04C11DB7, 0xFFFFFFFF) := by decide
/-- R176: INIT = 0x000000FF and CRC not touched. -/
theorem test_seti : configAfter (exec (.seti 0xFF) idle) = some (32, 0x04C11DB7, 0xFF) ∧
    crcAfter (exec (.seti 0xFF) idle) = some 0x5 := by decide
/-- R131's example. -/
theorem test_start_copies_init :
    crcAfter (exec .start idle) = some 0xFFFFFFFF ∧ statusAfter (exec .start idle) = some 0x01 := by decide
/-- E15, E18. -/
theorem test_start_twice_and_locked :
    statusAfter (exec .start (chain 0)) = some 0x20 ∧ statusAfter (exec .start locked) = some 0x10 := by decide
/-- R135's example. -/
theorem test_stepw_folds : crcAfter (exec (.stepw 0xC1) chain8) = some 0x4C ∧
    statusAfter (exec (.stepw 0xC1) chain8) = some 0x01 := by decide
/-- E17, E19. -/
theorem test_stepw_errors :
    statusAfter (exec (.stepw 0x42) (chain 1)) = some 0x20 ∧ statusAfter (exec (.stepw 0x41) locked) = some 0x30 := by decide
/-- P3: BYTE 0x33 with two bytes buffered only buffers; BYTE 0x34 folds the word 0x34333231. -/
theorem test_byte_buffers_and_folds :
    statusAfter (exec (.byte 0x33) (chain 2)) = some 0x0D ∧ crcAfter (exec (.byte 0x33) (chain 2)) = some 0xFFFFFFFF ∧
      statusAfter (exec (.byte 0x34) (chain 3)) = some 0x01 := by decide
theorem test_byte_folds_little_endian : crcAfter (exec (.byte 0x34) (chain 3)) = some 0xC2091428 := by decide +kernel
/-- F3 (bytes 0x41, 0x42): the padded word is 0x00004241. -/
theorem test_finish_pads_above :
    partialWord { blockWith 0 { Status.clear with active := true, bcnt := 2 } with b0 := 0x41, b1 := 0x42 } =
      some 0x00004241 := by decide
/-- T1, E14. -/
theorem test_finish_empty_and_outside :
    crcAfter (exec .finish (chain 0)) = some 0xFFFFFFFF ∧ statusAfter (exec .finish (chain 0)) = some 0x02 ∧
      statusAfter (exec .finish idle) = some 0x20 := by decide
/-- E24, E26. -/
theorem test_abort : statusAfter (exec .abort (chain 2)) = some 0x40 ∧ statusAfter (exec .abort finished) = some 0x40 ∧
    crcAfter (exec .abort (chain 2)) = some 0xFFFFFFFF := by decide
/-- R181's example, E22. -/
theorem test_clrerr : statusAfter (exec .clrerr locked) = some 0x00 ∧ statusAfter (exec .clrerr (chain 0)) = some 0x01 := by
  decide

/-! ### The step -/

/-- E23: CLRERR with DATA clears nothing and sets ERR_ILL. -/
theorem test_illegal_word : statusAfter (step (locked.withFetchWord 40 0x0900000001)) = some 0x90 := by decide
/-- E28: ERR_ILL before ERR_SEQ. -/
theorem test_illegal_before_sequence : statusAfter (step ((chain 0).withFetchWord 40 0x0400000001)) = some 0x80 := by
  decide
/-- E5: the first command after reset. -/
theorem test_first_command_after_reset :
    configAfter (step (State.reset.withFetchWord 40 0x0100000001)) = some (1, 0x04C11DB7, 0xFFFFFFFF) := by decide
/-- R240: reset ends an open chain without an error and restores the configuration. -/
theorem test_reset_event : statusAfter (step (chain8.present .reset)) = some 0x00 ∧
    configAfter (step (chain8.present .reset)) = some (32, 0x04C11DB7, 0xFFFFFFFF) := by decide

/-! ### The assembler (R79; lines of P1, P2, P4) -/

theorem test_assemble_hex_and_comment :
    assembleWords sampleCode "SETP 0xCB      ; 0x02_000000CB".toList = .ok [0x02000000CB] := by decide
theorem test_assemble_decimal_any_case : assembleWords sampleCode "  setw 16".toList = .ok [0x0100000010] := by decide
theorem test_assemble_character : assembleWords sampleCode "STEPW 'A'".toList = .ok [0x0500000041] := by decide
theorem test_assemble_errors :
    assembleWords sampleCode "BYTE 256".toList = .error .operandTooWide ∧
      assembleWords sampleCode "SETP 'A'".toList = .error .badOperand ∧
      assembleWords sampleCode "NOP 0".toList = .error .badOperandList := by decide
theorem test_assemble_pseudo :
    assembleLine sampleCode "FILE 0x31, 50".toList = .ok [.start, .byte 0x31, .byte 0x32, .finish] ∧
      assembleLine sampleCode "CONFIG 8, 0xCB, 0xFF".toList = .ok [.setw 8, .setp 0xCB, .seti 0xFF] ∧
      assembleLine sampleCode "TEXT".toList = .ok [.start, .finish] := by decide

/-! ### Witnesses: for every statement with hypotheses, a state and operands that meet them, clause by clause -/

/-- The host presents one word, then a reset. -/
def presenting (s : State) (w : CommandWord) : State := { s with port := [.command w, .reset] }

theorem witness_DecodedWordIsItsEncoding : decode 0x06000000FF = .ok (.byte 0xFF) := by decide

theorem witness_DecodeFollowsTheMatchAndMaskTable :
    (∃ row ∈ opcodeRows, row.fits 0x0100000021 = true) ∧ (∀ row ∈ opcodeRows, row.fits 0x0A00000000 = false) := by
  decide

theorem witness_OpcodeMapDecodes : 0x0A ≤ (0x0A : BitVec 8).toNat ∧ 0x0A ≤ (0xFF : BitVec 8).toNat := by decide

theorem witness_IllegalWordsRaiseErrIllAndNothingElse :
    decode 0x0A00000000 = .error .reservedOpcode ∧ decode 0x0900000001 = .error .operandNotZero ∧
      decode 0x0600000100 = .error .byteTooWide ∧ (presenting (chain 1) 0x0600000100).port =
        .command 0x0600000100 :: [.reset] := by decide

theorem witness_StepRunsTheDecodedCommand :
    (presenting idle 0x0400000000).port = .command 0x0400000000 :: [.reset] ∧ decode 0x0400000000 = .ok .start := by
  decide

theorem witness_StepWithNoEventHoldsTheState : (chain 2).port = [] := by decide

theorem witness_ResetGivesTheResetValues : ((chain 2).present .reset).port = .reset :: [] := by decide

/-- The hypotheses of `RaisesIllegal` and of the clauses about a DATA that is not allowed (NOP, START, FINISH, ABORT,
CLRERR, BYTE), at their least value. -/
theorem witness_illegal_operands :
    (1 : Word) ≠ 0 ∧ 2 ^ 8 ≤ (0x100 : Word).toNat ∧
      (presenting locked (commandWord 0x00 1)).port = .command (commandWord 0x00 1) :: [.reset] := by decide

theorem witness_SetwWritesALegalWidth :
    idle.block.status.active = false ∧ (1 ≤ (1 : Word).toNat ∧ (1 : Word).toNat ≤ 32) ∧
      (1 ≤ (32 : Word).toNat ∧ (32 : Word).toNat ≤ 32) ∧ (0 : Word).toNat < 1 ∧ 32 < (33 : Word).toNat ∧
      (chain 0).block.status.active = true := by decide

theorem witness_SetpWritesThePolynomial :
    idle.block.status.active = false ∧ (chain 0).block.status.active = true := by decide

theorem witness_SetiWritesTheInitialValue :
    locked.block.status.active = false ∧ (chain 3).block.status.active = true := by decide

theorem witness_StartOpensAChain :
    (idle.block.status.errorSet = false ∧ idle.block.status.active = false) ∧
      ((chain 0).block.status.errorSet = false ∧ (chain 0).block.status.active = true) ∧
      locked.block.status.errorSet = true := by decide

theorem witness_StepwFoldsItsWord :
    ((chain 0).block.status.active = true ∧ (chain 0).block.status.bcnt = 0) ∧
      idle.block.status.active = false ∧ (chain 1).block.status.bcnt ≠ 0 := by decide

theorem witness_ByteFeedsTheWordSplitter :
    ((chain 0).block.status.active = true ∧ (chain 0).block.status.bcnt = 0) ∧
      ((chain 1).block.status.active = true ∧ (chain 1).block.status.bcnt = 1) ∧
      ((chain 2).block.status.active = true ∧ (chain 2).block.status.bcnt = 2) ∧
      ((chain 3).block.status.active = true ∧ (chain 3).block.status.bcnt = 3) ∧
      idle.block.status.active = false := by decide

theorem witness_FinishClosesTheChain :
    ((chain 0).block.status.active = true ∧ (chain 0).block.status.bcnt = 0) ∧
      ((chain 1).block.status.active = true ∧ (chain 1).block.status.bcnt = 1) ∧
      ((chain 2).block.status.active = true ∧ (chain 2).block.status.bcnt = 2) ∧
      ((chain 3).block.status.active = true ∧ (chain 3).block.status.bcnt = 3) ∧
      finished.block.status.active = false := by decide

theorem witness_SequenceErrorsHaveExactlyTheseCauses :
    sequenceError (.stepw 0) (chain 1).block.status = true ∧
      exec (.stepw 0) (chain 1) = .next ((chain 1).withBlock ((chain 1).block.raise .seq)) ∧
      (chain 1).block.status.errSeq = false := ⟨rfl, rfl, rfl⟩

theorem witness_EachErrorBitHasItsCause :
    step (presenting locked 0x0800000000) =
        .next { locked with port := [.reset], block := locked.block.raise .io } ∧
      locked.block.status.has .io = false ∧ locked.block.status.has .cfg = true ∧
      (presenting locked 0x0800000000).pending ≠ some (.ok .clrerr) ∧
      (presenting locked 0x0800000000).port.head? ≠ some .reset :=
  ⟨rfl, rfl, rfl, by decide, by decide⟩

theorem witness_ErrorLockRefusesANewChain :
    locked.Inv ∧ locked.block.status.errorSet = true ∧ isWidth 1 = true ∧ isWidth 32 = true ∧ isWidth 0 = false ∧
      isWidth 33 = false ∧ Instr.start ≠ .clrerr := by decide

theorem witness_ErrorLock_next : exec .start locked = .next locked := rfl

theorem witness_LockEndsOnlyByClrerrOrReset :
    (presenting locked 0x0400000000).Inv ∧ (presenting locked 0x0400000000).block.status.errorSet = true ∧
      step (presenting locked 0x0400000000) = .next { locked with port := [.reset] } ∧
      (presenting locked 0x0400000000).pending ≠ some (.ok .clrerr) ∧
      (presenting locked 0x0400000000).port.head? ≠ some .reset :=
  ⟨by decide, rfl, rfl, by decide, by decide⟩

theorem witness_ChecksAreMadeInOrder :
    (presenting locked 0x0400000000).port = .command 0x0400000000 :: [.reset] ∧
      isIllegal 0x0400000001 = true ∧ isIllegal 0x0400000000 = false ∧ lockedOut .start locked.block.status = true ∧
      (lockedOut .start (chain 0).block.status = false ∧ sequenceError .start (chain 0).block.status = true) ∧
      (lockedOut (.setw 0) idle.block.status = false ∧ sequenceError (.setw 0) idle.block.status = false ∧
        badWidth (.setw 0) = true) ∧
      (lockedOut (.setw 32) idle.block.status = false ∧ sequenceError (.setw 32) idle.block.status = false ∧
        badWidth (.setw 32) = false) := by decide

theorem witness_ErrorsArePrecise :
    step (presenting (chain 2) 0x0800000000) =
        .next { chain 2 with port := [.reset], block := (chain 2).block.raise .io } ∧
      (chain 2).block.status.has .io = false ∧ ((chain 2).block.raise .io).status.has .io = true :=
  ⟨rfl, rfl, rfl⟩

/-- The widths of the laws of the step, and bits that agree below the width and differ above it (S3, S4, S5). -/
theorem witness_widths_and_low_bits :
    (1 ≤ 1 ∧ 1 ≤ 32) ∧ (1 ≤ 32 ∧ 32 ≤ 32) ∧
      (∀ j < 8, (0x1C1 : Word).getLsbD j = (0xC1 : Word).getLsbD j) ∧
      (∀ j < 8, (0x1CB : Word).getLsbD j = (0xCB : Word).getLsbD j) ∧
      (∀ j < 8, (0xFFFFFFFF : Word).getLsbD j = (0xFF : Word).getLsbD j) ∧
      (∀ j < 8, (0x100 : Word).getLsbD j = false) := by decide

theorem witness_PartialGroupIsPaddedAbove :
    (∀ n : BitVec 2, (chain n).block.status.active = true) ∧ (chain 1).block.status.bcnt = 1 ∧ (chain 2).block.status.bcnt = 2 ∧ (chain 3).block.status.bcnt = 3 ∧
      (chain 0).block.status.bcnt = 0 := by decide

/-- The host has issued a text chain to a block with a finished result. -/
theorem witness_TextChainLeavesChainText :
    finished.block.Idle ∧ (finished.issue [.start, .stepw 0x41, .stepw 0x42, .finish]).port =
      commandEvents (expandPseudo sampleCode (.text [['A'], [], ['B']])) ++ [] := by decide

/-- The host has issued a binary chain, of whole groups and of a partial one. -/
theorem witness_FileChainLeavesChainFile :
    idle.block.Idle ∧ (idle.issue [.start, .byte 1, .finish]).port =
      commandEvents (expandPseudo sampleCode (.file [1])) ++ [] ∧
      (idle.issue [.start, .byte 1, .byte 0, .byte 0, .byte 0, .finish]).port =
        commandEvents (expandPseudo sampleCode (.file [1, 0, 0, 0])) ++ [] := by decide

theorem witness_OneByteFileEqualsItsZeroFilledFile :
    idle.block.Idle ∧ (idle.issue [.nop]).block = idle.block := by decide

theorem witness_WholeGroupsFoldAsTheirWords :
    idle.block.Idle ∧ (idle.issue [.start, .byte 0x31, .byte 0x32, .byte 0x33, .byte 0x34, .finish]).port =
      commandEvents (expandPseudo sampleCode (.file ([(0x34333231 : Word)].flatMap (fun w =>
        [w.extractLsb' 0 8, w.extractLsb' 8 8, w.extractLsb' 16 8, w.extractLsb' 24 8])))) ++ [] := by decide

theorem witness_InvariantKeptByEveryStep :
    (presenting (chain 3) 0x0600000034).Inv ∧
      step (presenting (chain 3) 0x0600000034) =
        .next { chain 3 with port := [.reset], block := (chain 3).block.feedByte 0x34 } :=
  ⟨by decide, rfl⟩

/-- Two idle blocks with another CRC and other buffered bytes are the same as far as the host can know. -/
theorem witness_UnspecValuesNeverReachAChecksum :
    State.SameKnown (presenting idle 0x0400000000)
        { presenting idle 0x0400000000 with
          block := { idle.block with crc := 0x6, b0 := 0, b1 := 0, b2 := 0 }, draws := 9 } ∧
      step (presenting idle 0x0400000000) = .next { idle with port := [.reset], block := idle.block.openChain } := by
  refine ⟨?_, rfl⟩
  simp [State.SameKnown, Block.SameKnown, presenting, idle, blockWith, Status.clear]

theorem witness_UnspecValues_active : (chain 0).block.status.active = true := rfl

theorem witness_EveryDrawGivesTheSameChecksum :
    Host.Core.run Sys2Proof.core 1 { block := Block.atReset 1 2 3 4, port := [.command 0x0400000000], draws := 5 } =
      .next { block := (Block.atReset 1 2 3 4).openChain, port := [], draws := 5 } := rfl

/-- A chain open at width 8 with n bytes buffered and CRC = INIT = 0xFFFFFFFF, beyond the width. -/
def wideChain (n : BitVec 2) : State := { chain n with block := { (chain n).block with width := 8 } }

theorem witness_CrcFitsTheWidthAfterAStep :
    (∀ n, (wideChain n).Inv ∧ (wideChain n).block.status.active = true ∧
      2 ^ (wideChain n).block.width.toNat ≤ (wideChain n).block.crc.toNat) ∧
      sequenceError (.stepw 0) (wideChain 0).block.status = false ∧ (wideChain 3).block.status.bcnt = 3 ∧
      (wideChain 1).block.status.bcnt ≠ 0 ∧ idle.Inv ∧ idle.block.Idle ∧
      exec (.stepw 0xC1) chain8 = .next (chain8.withBlock (chain8.block.fold 0xC1)) ∧ chain8.Inv ∧
      chain8.block.status.active = true ∧ chain8.block.crc.toNat < 2 ^ chain8.block.width.toNat :=
  ⟨by decide, rfl, rfl, by decide, by decide, by decide, rfl, by decide, rfl, by decide⟩

theorem witness_ConfigurationIsFixedInsideAChain :
    (presenting (chain 0) 0x02000000CB).block.status.active = true ∧
      (presenting (chain 0) 0x02000000CB).port.head? ≠ some .reset ∧
      step (presenting (chain 0) 0x02000000CB) =
        .next { chain 0 with port := [.reset], block := (chain 0).block.raise .seq } ∧
      (presenting (chain 0) 0x02000000CB).pending = some (.ok (.setp 0xCB)) ∧
      (presenting (chain 0) 0x0100000008).pending = some (.ok (.setw 8)) ∧
      (presenting (chain 0) 0x03000000FF).pending = some (.ok (.seti 0xFF)) :=
  ⟨rfl, by decide, rfl, rfl, rfl, rfl⟩

/-- Each register changed by one of its writers. -/
theorem witness_EachRegisterHasItsWriters :
    exec (.setw 8) idle = .next (idle.withBlock (idle.block.setWidth 8)) ∧ idle.block.width ≠ 8 ∧
      exec (.setp 1) idle = .next (idle.withBlock (idle.block.setPoly 1)) ∧ idle.block.poly ≠ 1 ∧
      exec (.seti 1) idle = .next (idle.withBlock (idle.block.setInit 1)) ∧ idle.block.init ≠ 1 ∧
      exec .start idle = .next (idle.withBlock idle.block.openChain) ∧ idle.block.openChain.crc ≠ idle.block.crc ∧
      idle.block.status.active = false ∧ idle.block.openChain.status.active = true ∧
      exec .finish (chain 0) = .next ((chain 0).withBlock (chain 0).block.closeChain) ∧
      (chain 0).block.status.valid = false ∧ (chain 0).block.closeChain.status.valid = true ∧
      (chain 0).block.closeChain.status.active = false ∧
      exec .start finished = .next (finished.withBlock finished.block.openChain) ∧
      finished.block.status.valid = true ∧ finished.block.openChain.status.valid = false ∧
      exec (.byte 9) (chain 0) = .next ((chain 0).withBlock ((chain 0).block.feedByte 9)) ∧
      ((chain 0).block.feedByte 9).b0 ≠ (chain 0).block.b0 ∧ ((chain 0).block.feedByte 9).status.bcnt ≠ 0 ∧
      exec .clrerr locked = .next (locked.withBlock locked.block.clearErrors) ∧
      locked.block.status.has .cfg = true ∧ locked.block.clearErrors.status.has .cfg = false :=
  ⟨rfl, by decide, rfl, by decide, rfl, by decide, rfl, by decide, rfl, rfl, rfl, rfl, rfl, rfl, rfl, rfl, rfl, rfl,
    by decide, by decide, rfl, rfl, rfl⟩

theorem witness_FrameOfTheConfigurationCommands :
    exec (.setw 8) idle = .next (idle.withBlock (idle.block.setWidth 8)) ∧ idle.block.status.active = false ∧
      badWidth (.setw 8) = false ∧ badWidth (.setw 33) = true ∧
      exec (.setp 8) (chain 0) = .next ((chain 0).withBlock ((chain 0).block.raise .seq)) ∧
      (chain 0).block.status.active = true := ⟨rfl, rfl, rfl, rfl, rfl, rfl⟩

theorem witness_FrameOfTheChainCommands :
    exec (.byte 9) (chain 0) = .next ((chain 0).withBlock ((chain 0).block.feedByte 9)) ∧
      sequenceError (.byte 9) (chain 0).block.status = false ∧ (chain 0).block.status.bcnt ≠ 3 ∧
      (chain 0).block.status.bcnt ≠ 1 ∧ (chain 0).block.status.bcnt ≠ 2 ∧ (chain 1).block.status.bcnt ≠ 0 ∧
      sequenceError (.byte 9) idle.block.status = true ∧ sequenceError (.stepw 9) (chain 0).block.status = false ∧
      exec (.byte 9) idle = .next (idle.withBlock (idle.block.raise .seq)) ∧ (chain 0).block.status.bcnt = 0 :=
  ⟨rfl, rfl, by decide, by decide, by decide, by decide, rfl, rfl, rfl, rfl⟩

theorem witness_FrameOfTheControlCommands :
    exec .nop (chain 2) = .next (chain 2) ∧
      exec .abort (chain 2) = .next ((chain 2).withBlock ((chain 2).block.raise .io)) ∧
      exec .clrerr locked = .next (locked.withBlock locked.block.clearErrors) := ⟨rfl, rfl, rfl⟩

theorem witness_ResultStaysUntilAChainOrAnError :
    finished.Inv ∧ finished.block.status.valid = true ∧
      exec (.setp 0xCB) finished = .next (finished.withBlock (finished.block.setPoly 0xCB)) ∧
      badWidth (.setp 0xCB) = false ∧ badWidth (.setw 33) = true ∧
      exec .start finished = .next (finished.withBlock finished.block.openChain) := ⟨by decide, rfl, rfl, rfl, rfl, rfl⟩

/-- Numbers of lines of spec/95_test_vectors.md section 5 and the least that do not fit DATA. -/
theorem witness_numbers :
    IsNumberText ['0', 'x', 'C', 'B'] 0xCB ∧ IsNumberText ['0', 'x', 'f', 'f'] 0xFF ∧ IsNumberText ['1', '6'] 16 ∧
      IsNumberText ['0'] 0 ∧ IsNumberText ['2', '5', '6'] (2 ^ 8) ∧
      IsNumberText ['4', '2', '9', '4', '9', '6', '7', '2', '9', '6'] (2 ^ 32) :=
  ⟨⟨[12, 11], by decide, .inr ⟨['C', 'B'], rfl, by unfold AreDigits; decide, by decide⟩⟩,
    ⟨[15, 15], by decide, .inr ⟨['f', 'f'], rfl, by unfold AreDigits; decide, by decide⟩⟩,
    ⟨[1, 6], by decide, .inl ⟨by unfold AreDigits; decide, by decide⟩⟩,
    ⟨[0], by decide, .inl ⟨by unfold AreDigits; decide, by decide⟩⟩,
    ⟨[2, 5, 6], by decide, .inl ⟨by unfold AreDigits; decide, by decide⟩⟩,
    ⟨[4, 2, 9, 4, 9, 6, 7, 2, 9, 6], by decide, .inl ⟨by unfold AreDigits; decide, by decide⟩⟩⟩

/-- A blank before and after a name, a comment, and every name in some case. -/
theorem witness_AssembledWordsAreLegalCommands :
    assembleWords sampleCode "CRCSTEP 'A' ; one step".toList = .ok [0x0400000000, 0x0500000041, 0x0700000000] ∧
      IsBlanks [] ∧ IsBlanks [' ', Char.ofNat 9] ∧ IsLineEnd [] ∧ IsLineEnd [' ', ';', 'x'] ∧
      IsNameText ['n', 'o', 'P'] "NOP" ∧ IsNameText ['s', 't', 'a', 'r', 't'] "START" ∧
      IsNameText ['F', 'i', 'n', 'i', 's', 'h'] "FINISH" ∧ IsNameText ['a', 'b', 'o', 'r', 't'] "ABORT" ∧
      IsNameText ['c', 'l', 'r', 'e', 'r', 'r'] "CLRERR" ∧ IsNameText ['S', 'E', 'T', 'W'] "SETW" ∧
      IsNameText ['s', 'e', 't', 'p'] "SETP" ∧ IsNameText ['S', 'e', 't', 'i'] "SETI" ∧
      IsNameText ['s', 't', 'e', 'p', 'W'] "STEPW" ∧ IsNameText ['b', 'y', 't', 'e'] "BYTE" ∧
      IsCharText sampleCode [singleQuote, 'A', singleQuote] 0x41 :=
  ⟨by decide, by simp [IsBlanks], by simp [IsBlanks], ⟨[], [], rfl, by simp [IsBlanks], .inl rfl⟩,
    ⟨[' '], [';', 'x'], rfl, by simp [IsBlanks], .inr ⟨['x'], rfl⟩⟩, by decide, by decide, by decide, by decide, by decide,
    by decide, by decide, by decide, by decide, by decide, ⟨'A', rfl, by decide⟩⟩

theorem witness_PseudoInstructionLinesAreTheirExpansions :
    IsBlanks [' '] ∧ [' '] ≠ [] ∧ IsLineEnd [] ∧ IsNameText ['c', 'o', 'n', 'f', 'i', 'g'] "CONFIG" ∧
      IsNameText ['C', 'r', 'c', 's', 't', 'e', 'p'] "CRCSTEP" ∧ IsNameText ['t', 'e', 'x', 't'] "TEXT" ∧
      IsNameText ['f', 'i', 'l', 'e'] "FILE" ∧ IsNumberText ['1', '6'] (16 : Word).toNat ∧
      (∀ cs ∈ [['a', ',', ';'], []], doubleQuote ∉ cs) ∧
      List.Forall₂ (fun text v => IsNumberText text v.toNat ∨ IsCharText sampleCode text v.toNat)
        [['0', 'x', 'f', 'f'], [singleQuote, 'A', singleQuote]] [(0xFF : Byte), 0x41] :=
  ⟨by simp [IsBlanks], by decide, ⟨[], [], rfl, by simp [IsBlanks], .inl rfl⟩, by decide, by decide, by decide,
    by decide, witness_numbers.2.2.1, by simp [doubleQuote],
    .cons (.inl witness_numbers.2.1) (.cons (.inr ⟨'A', rfl, by decide⟩) .nil)⟩

theorem witness_PseudoInstructionsExpand : ∀ cs ∈ ([[], []] : List (List Char)), cs = [] := by decide

end Sys2Proof.Tests
end

section
/-! Reset and the output ports (spec/10_state.md R26, R30, R33): the values the reset gives, and where each field of
STATUS lies on STATUS_OUT. -/

namespace Sys2Proof.Machine

/-! ## Reset -/

section
variable (crc : Word) (b0 b1 b2 : Byte)

@[simp] theorem Block.atReset_width : (Block.atReset crc b0 b1 b2).width = 32 := rfl
@[simp] theorem Block.atReset_poly : (Block.atReset crc b0 b1 b2).poly = 0x04C11DB7 := rfl
@[simp] theorem Block.atReset_init : (Block.atReset crc b0 b1 b2).init = 0xFFFFFFFF := rfl
@[simp] theorem Block.atReset_status : (Block.atReset crc b0 b1 b2).status = Status.clear := rfl

end

/-- `Status.clear` is STATUS = 0x00 (R33). -/
@[simp] theorem Status.toBits_clear : Status.clear.toBits = 0x00 := by decide

/-- A reset event resets the block and leaves the host's later events (R33, R240). -/
theorem step_reset {s : State} {rest : List HostEvent} (h : s.port = .reset :: rest) :
    step s = .next { block := Block.afterReset s.draws, port := rest, draws := s.draws + 1 } := by
  obtain ⟨hp, -⟩ | ⟨rest', hp, hstep⟩ | ⟨_, _, _, hp, -⟩ | ⟨_, _, _, hp, -⟩ := step_cases s
  · simp [h] at hp
  · obtain rfl : rest = rest' := by simpa [h] using hp
    exact hstep
  · simp [h] at hp
  · simp [h] at hp

/-- Settles O9: both the state after reset and the block a reset event leaves are `Block.atReset` of some draw. -/
theorem resetGivesTheResetValues : Obligations.ResetGivesTheResetValues :=
  ⟨by simp [State.reset], fun _ _ h => ⟨_, step_reset h, by simp [Block.afterReset]⟩⟩

/-! ## The output ports -/

/-- The layout of STATUS: each bit of `Status.toBits`, found by counting off the fields from bit 0 (R26). -/
theorem Status.toBits_getLsbD (t : Status) (i : Nat) : t.toBits.getLsbD i =
    if i = 0 then t.active else if i = 1 then t.valid else if i < 4 then t.bcnt.getLsbD (i - 2)
    else if i = 4 then t.errCfg else if i = 5 then t.errSeq else if i = 6 then t.errIo
    else decide (i = 7) && t.errIll := by
  simp only [Status.toBits, BitVec.getLsbD_append, BitVec.getLsbD_ofBool]
  match i with
  | 0 | 1 | 2 | 3 | 4 | 5 | 6 => simp
  | n + 7 => simp

/-- BCNT is bits 3:2 of STATUS (R26). -/
@[simp] theorem Status.toBits_extract_bcnt (t : Status) : t.toBits.extractLsb' 2 2 = t.bcnt := by
  refine BitVec.eq_of_getLsbD_eq fun i hi => ?_
  have hfield : 2 + i ≠ 0 ∧ 2 + i ≠ 1 ∧ 2 + i < 4 := by omega
  simp [Status.toBits_getLsbD, hi, hfield]

/-- The bit of STATUS at an error's code says whether that error is recorded (R200). -/
@[simp] theorem Status.toBits_getLsbD_code (t : Status) (e : ErrorKind) : t.toBits.getLsbD e.code = t.has e := by
  cases e <;> simp only [Status.toBits_getLsbD] <;> rfl

/-- Settles O56: the error bits are `Status.toBits_getLsbD_code` at each of the four codes. -/
theorem outputPortsShowTheRegisters : Obligations.OutputPortsShowTheRegisters := fun b =>
  ⟨rfl, rfl, rfl, rfl, b.status.toBits_getLsbD 0, b.status.toBits_getLsbD 1, b.status.toBits_extract_bcnt,
    b.status.toBits_getLsbD_code .cfg, b.status.toBits_getLsbD_code .seq, b.status.toBits_getLsbD_code .io,
    b.status.toBits_getLsbD_code .ill⟩

end Sys2Proof.Machine
end

section
/-! The words of binary chaining (spec/20_memory.md R53, R55): a group's word is its bytes written one after the other,
the last byte first, and FINISH folds the word of the partial group completed with zero bytes. -/

namespace Sys2Proof.Machine

/-! ## Little-endian groups -/

section
variable (b0 b1 b2 b3 : Byte)

/-- The concatenation b3 || b2 || b1 || b0 (R53). -/
theorem groupWord_eq_append : groupWord b0 b1 b2 b3 = b3 ++ b2 ++ b1 ++ b0 := by
  rw [← BitVec.setWidth_eq (b3 ++ b2 ++ b1 ++ b0), BitVec.setWidth_append_append_append_eq_shiftLeft_setWidth_or]
  rfl

/-- The number of a group's word: its bytes are the base-256 digits, the first one least significant (R53). -/
theorem groupWord_toNat :
    (groupWord b0 b1 b2 b3).toNat = b3.toNat * 2 ^ 24 + b2.toNat * 2 ^ 16 + b1.toNat * 2 ^ 8 + b0.toNat := by
  have digit (n : Nat) (b : Byte) : n <<< 8 ||| b.toNat = n * 2 ^ 8 + b.toNat := by
    rw [← Nat.shiftLeft_add_eq_or_of_lt b.isLt, Nat.shiftLeft_eq]
  simp only [groupWord_eq_append, BitVec.toNat_append, digit]
  omega

/-! ## Zero bytes above a partial group -/

/-- One byte completed with zero bytes (R55, n = 1). -/
theorem groupWord_pad_one : groupWord b0 0 0 0 = b0.setWidth 32 := by
  simp [groupWord]

/-- Two bytes completed with zero bytes (R55, n = 2). -/
theorem groupWord_pad_two : groupWord b0 b1 0 0 = (b1.setWidth 32 <<< 8) ||| b0.setWidth 32 := by
  simp [groupWord]

/-- Three bytes completed with a zero byte (R55, n = 3). -/
theorem groupWord_pad_three :
    groupWord b0 b1 b2 0 = (b2.setWidth 32 <<< 16) ||| (b1.setWidth 32 <<< 8) ||| b0.setWidth 32 := by
  simp [groupWord]

end

/-- Settles O40: the shifts and ORs are the definition, the number is `groupWord_toNat`. -/
theorem groupWordIsLittleEndian : Obligations.GroupWordIsLittleEndian := fun b0 b1 b2 b3 =>
  ⟨rfl, groupWord_toNat b0 b1 b2 b3⟩

section
variable {b : Block}

/-- FINISH's word with one byte buffered is the group completed with zero bytes (R55, R151). -/
theorem partialWord_of_bcnt_one (h : b.status.bcnt = 1) : partialWord b = some (groupWord b.b0 0 0 0) := by
  rw [groupWord_pad_one]
  simp [partialWord, h]

/-- FINISH's word with two bytes buffered is the group completed with zero bytes (R55, R151). -/
theorem partialWord_of_bcnt_two (h : b.status.bcnt = 2) : partialWord b = some (groupWord b.b0 b.b1 0 0) := by
  rw [groupWord_pad_two]
  simp [partialWord, h]

/-- FINISH's word with three bytes buffered is the group completed with a zero byte (R55, R151). -/
theorem partialWord_of_bcnt_three (h : b.status.bcnt = 3) : partialWord b = some (groupWord b.b0 b.b1 b.b2 0) := by
  rw [groupWord_pad_three]
  simp [partialWord, h]

/-- Closing a chain folds the partial group's word where there is one (R151). -/
theorem Block.closeChain_crc_of_partialWord {word : Word} (h : partialWord b = some word) :
    b.closeChain.crc = crcStep word b.poly b.crc b.width.toNat := by
  simp [Block.closeChain, Block.foldPartial, h]

/-- Closing a chain between groups leaves CRC: there is no padding word (R55, R151). -/
theorem Block.closeChain_crc_of_bcnt_zero (h : b.status.bcnt = 0) : b.closeChain.crc = b.crc := by
  simp [Block.closeChain, Block.foldPartial, partialWord, h]

end

/-- FINISH inside a chain completes with the chain closed (R151). -/
theorem exec_finish_of_active {s : State} (h : s.block.status.active = true) :
    exec .finish s = .next (s.withBlock s.block.closeChain) := by
  simp [exec, execFinish, complete, h]

/-- Settles O41: each count's word of the partial group is the padded one, and closing the chain folds it. -/
theorem partialGroupIsPaddedAbove : Obligations.PartialGroupIsPaddedAbove :=
  ⟨fun b0 b1 b2 => ⟨groupWord_pad_one b0, groupWord_pad_two b0 b1, groupWord_pad_three b0 b1 b2⟩,
    fun _ hactive => ⟨_, exec_finish_of_active hactive,
      fun h => Block.closeChain_crc_of_partialWord (partialWord_of_bcnt_one h),
      fun h => Block.closeChain_crc_of_partialWord (partialWord_of_bcnt_two h),
      fun h => Block.closeChain_crc_of_partialWord (partialWord_of_bcnt_three h),
      fun h => Block.closeChain_crc_of_bcnt_zero h⟩⟩

end Sys2Proof.Machine
end

section
/-! The command words (spec/30_encoding.md R72 to R78). One equation says what the decoder makes of a word whose OP is
a command's: it takes the word as that command with the word's operand exactly when the DATA bits the command fixes
are zero. That the decoder and the encoder agree, the match and mask rows and the illegal-command check all follow
from it. -/

namespace Sys2Proof

open Laws.LegalEncoding (opField_commandWord dataField_commandWord opNumber_commandWord dataNumber_commandWord)

/-! ## The operand of BYTE -/

section
variable {data : Word}

/-- DATA[31:8] is zero when DATA, as a number, is below 2^8 (R75, R77). -/
theorem extract_high_eq_zero_iff : data.extractLsb' 8 24 = 0#24 ↔ data.toNat < 2 ^ 8 := by
  have h := data.isLt
  rw [← BitVec.toNat_inj, BitVec.extractLsb'_toNat, Nat.shiftRight_eq_div_pow, BitVec.toNat_ofNat]
  omega

/-- The DATA bits that BYTE's row fixes are zero when DATA, as a number, is below 2^8 (R73, R75). -/
theorem and_high_eq_zero_iff : data &&& 0xFFFFFF00#32 = 0#32 ↔ data.toNat < 2 ^ 8 := by
  have h := data.isLt
  have hmask : data &&& 0xFFFFFF00#32 = (data >>> 8) <<< 8 :=
    (BitVec.shiftLeft_ushiftRight (x := data) (n := 8)).symm
  rw [hmask, ← BitVec.toNat_inj, BitVec.toNat_shiftLeft, BitVec.toNat_ushiftRight, Nat.shiftRight_eq_div_pow,
    Nat.shiftLeft_eq, BitVec.toNat_ofNat]
  omega

/-- A DATA below 2^8 is its low byte, zero-extended (R71). -/
theorem setWidth_extract_low (h : data.toNat < 2 ^ 8) : (data.extractLsb' 0 8).setWidth 32 = data := by
  apply BitVec.eq_of_toNat_eq
  rw [BitVec.toNat_setWidth, BitVec.extractLsb'_toNat, Nat.shiftRight_zero]
  omega

end

/-- A byte, zero-extended to a DATA, is below 2^8. -/
theorem toNat_setWidth_byte (v : Byte) : (v.setWidth 32).toNat < 2 ^ 8 := by
  rw [BitVec.toNat_setWidth]
  omega

/-- The low byte of a zero-extended byte is that byte (R71). -/
theorem extract_low_setWidth (v : Byte) : (v.setWidth 32).extractLsb' 0 8 = v := by
  apply BitVec.eq_of_toNat_eq
  rw [BitVec.extractLsb'_toNat, BitVec.toNat_setWidth, Nat.shiftRight_zero]
  omega

/-! ## A command with the operand of a word -/

/-- Without an operand all of DATA is fixed (R74). -/
theorem and_all_data (data : Word) : data &&& 0xFFFFFFFF#32 = data := BitVec.and_allOnes

/-- The DATA bits a command requires to be zero: all of them without an operand (R74), DATA[31:8] for BYTE (R75). -/
def fixedData : Instr → Word
  | .setw _ | .setp _ | .seti _ | .stepw _ => 0
  | .byte _ => 0xFFFFFF00
  | .nop | .start | .finish | .abort | .clrerr => 0xFFFFFFFF

/-- The command with the operand that DATA gives it (R71). -/
def withOperand (data : Word) : Instr → Instr
  | .setw _ => .setw data
  | .setp _ => .setp data
  | .seti _ => .seti data
  | .stepw _ => .stepw data
  | .byte _ => .byte (data.extractLsb' 0 8)
  | i => i

section
variable (data : Word) (i : Instr)

@[simp] theorem opcode_withOperand : opcode (withOperand data i) = opcode i := by cases i <;> rfl

@[simp] theorem mnemonic_withOperand : mnemonic (withOperand data i) = mnemonic i := by cases i <;> rfl

/-- A command's own operand changes nothing in it. -/
@[simp] theorem withOperand_operand : withOperand (operand i) i = i := by
  cases i with
  | byte v => rw [operand, withOperand, extract_low_setWidth]
  | _ => rfl

/-- A command's word has zeros where the command requires them (R74, R75). -/
@[simp] theorem operand_and_fixedData : operand i &&& fixedData i = 0 := by
  cases i with
  | byte v => exact and_high_eq_zero_iff.2 (toNat_setWidth_byte v)
  | _ => simp [operand, fixedData]

variable {data i}

/-- DATA with zeros where the command requires them is the operand of the command it gives. -/
theorem operand_withOperand (h : data &&& fixedData i = 0) : operand (withOperand data i) = data := by
  cases i with
  | setw _ | setp _ | seti _ | stepw _ => rfl
  | byte _ => exact setWidth_extract_low (and_high_eq_zero_iff.1 h)
  | nop | start | finish | abort | clrerr => exact h.symm.trans (and_all_data data)

end

/-! ## The decoder and the encoder -/

/-- OP is a command's or reserved (R72, R76). -/
theorem opcode_cases (op : BitVec 8) : (∃ i, opcode i = op) ∨ 0x0A ≤ op.toNat := by
  have hop : (op = 0x00 ∨ op = 0x01 ∨ op = 0x02 ∨ op = 0x03 ∨ op = 0x04 ∨ op = 0x05 ∨ op = 0x06 ∨ op = 0x07 ∨
      op = 0x08 ∨ op = 0x09) ∨ 0x0A ≤ op.toNat := by
    bv_omega
  refine hop.imp_left ?_
  rintro (rfl | rfl | rfl | rfl | rfl | rfl | rfl | rfl | rfl | rfl)
  exacts [⟨.nop, rfl⟩, ⟨.setw 0, rfl⟩, ⟨.setp 0, rfl⟩, ⟨.seti 0, rfl⟩, ⟨.start, rfl⟩, ⟨.stepw 0, rfl⟩, ⟨.byte 0, rfl⟩,
    ⟨.finish, rfl⟩, ⟨.abort, rfl⟩, ⟨.clrerr, rfl⟩]

/-- Every OP of 0x0A or above is rejected as reserved (R76). -/
theorem decode_reserved {op : BitVec 8} (data : Word) (h : 0x0A ≤ op.toNat) :
    decode (commandWord op data) = .error .reservedOpcode := by
  have hne (k : BitVec 8) (hk : k.toNat < 0x0A) : op ≠ k := by
    rintro rfl
    omega
  simp [decode_commandWord, hne]

/-- What the decoder makes of a word with a command's OP (R73, R74, R75). -/
theorem decode_opcode (i : Instr) (data : Word) :
    decode (commandWord (opcode i) data) =
      if data &&& fixedData i = 0 then .ok (withOperand data i)
      else .error (if opcode i = 0x06 then .byteTooWide else .operandNotZero) := by
  rw [decode_commandWord]
  cases i with
  | setw _ | setp _ | seti _ | stepw _ => simp [opcode, fixedData, withOperand]
  | byte _ => simp [opcode, fixedData, withOperand, extract_high_eq_zero_iff, and_high_eq_zero_iff]
  | nop | start | finish | abort | clrerr => simp [opcode, fixedData, withOperand, and_all_data]

/-- A command is what its word decodes to (R78). -/
@[simp] theorem decode_encode (i : Instr) : decode (encode i) = .ok i := by
  rw [encode, decode_opcode, operand_and_fixedData, if_pos rfl, withOperand_operand]

/-- A word that decodes is the word of its command (R78). -/
theorem encode_of_decode {w : CommandWord} {i : Instr} (h : decode w = .ok i) : encode i = w := by
  rw [← commandWord_fields w] at h ⊢
  generalize opField w = op, dataField w = data at h ⊢
  obtain ⟨j, rfl⟩ | hop := opcode_cases op
  · rw [decode_opcode] at h
    split at h
    next hfixed =>
      obtain rfl : withOperand data j = i := Except.ok.inj h
      rw [encode, opcode_withOperand, operand_withOperand hfixed]
    next => cases h
  · rw [decode_reserved data hop] at h
    cases h

/-- Settles O4: each assigned row is the round trip of its command, the reserved ones are `decode_reserved`. -/
theorem opcodeMapDecodes : Obligations.OpcodeMapDecodes :=
  ⟨decode_encode .nop, fun d => decode_encode (.setw d), fun d => decode_encode (.setp d),
    fun d => decode_encode (.seti d), decode_encode .start, fun d => decode_encode (.stepw d),
    fun v => decode_encode (.byte v), decode_encode .finish, decode_encode .abort, decode_encode .clrerr,
    fun _ d h => decode_reserved d h⟩

/-! ## The match and mask rows -/

/-- The row of a command: its OP and the DATA bits it fixes to zero (R73). -/
def rowOf (i : Instr) : OpcodeRow := ⟨mnemonic i, commandWord (opcode i) 0, commandWord 0xFF (fixedData i)⟩

/-- The table is the rows of the ten commands (R72, R73). -/
theorem opcodeRows_eq : opcodeRows =
    [.nop, .setw 0, .setp 0, .seti 0, .start, .stepw 0, .byte 0, .finish, .abort, .clrerr].map rowOf := by
  decide

/-- Every command has its row in the table. -/
theorem rowOf_mem (i : Instr) : rowOf i ∈ opcodeRows := by
  cases i <;> simp [opcodeRows_eq, rowOf, mnemonic, opcode, fixedData]

/-- Every row of the table is the row of a command. -/
theorem exists_rowOf_eq {row : OpcodeRow} (h : row ∈ opcodeRows) : ∃ i, rowOf i = row := by
  rw [opcodeRows_eq] at h
  obtain ⟨i, -, hi⟩ := List.mem_map.1 h
  exact ⟨i, hi⟩

/-- A row is known by its mnemonic. -/
theorem rowOf_eq_of_mnemonic_eq {i j : Instr} (h : mnemonic i = mnemonic j) : rowOf i = rowOf j :=
  List.inj_on_of_nodup_map (f := OpcodeRow.name) (by decide) (rowOf_mem i) (rowOf_mem j) h

/-- Masking a laid-out word masks its two fields (R70). -/
theorem commandWord_and (op op' : BitVec 8) (data data' : Word) :
    commandWord op data &&& commandWord op' data' = commandWord (op &&& op') (data &&& data') :=
  BitVec.and_append

/-- A word is laid out from its fields in one way (R70). -/
theorem commandWord_inj {op op' : BitVec 8} {data data' : Word} :
    commandWord op data = commandWord op' data' ↔ op = op' ∧ data = data' := by
  refine ⟨fun h => ⟨?_, ?_⟩, fun ⟨hop, hdata⟩ => by rw [hop, hdata]⟩
  · simpa [opField_commandWord] using congrArg opField h
  · simpa [dataField_commandWord] using congrArg dataField h

/-- A word fits a command's row when it has the command's OP, and zeros where the command requires them (R73). -/
theorem rowOf_fits_iff (i : Instr) (w : CommandWord) :
    (rowOf i).fits w = true ↔ opField w = opcode i ∧ dataField w &&& fixedData i = 0 := by
  have hop : opField w &&& 0xFF = opField w := BitVec.and_allOnes
  conv_lhs => rw [OpcodeRow.fits, decide_eq_true_iff, ← commandWord_fields w, rowOf]
  rw [commandWord_and, commandWord_inj, hop]

/-- A command's word fits the command's row. -/
theorem rowOf_fits_encode (i : Instr) : (rowOf i).fits (encode i) = true := by
  rw [rowOf_fits_iff, encode, opField_commandWord, dataField_commandWord]
  exact ⟨rfl, operand_and_fixedData i⟩

/-- A word that fits a command's row decodes to that command with the word's operand (R73). -/
theorem decode_of_rowOf_fits {i : Instr} {w : CommandWord} (h : (rowOf i).fits w = true) :
    decode w = .ok (withOperand (dataField w) i) := by
  obtain ⟨hop, hfixed⟩ := (rowOf_fits_iff i w).1 h
  rw [← commandWord_fields w, hop, decode_opcode, dataField_commandWord, if_pos hfixed]

/-- A word is read as a row's command exactly when it fits the row (R73). -/
theorem rowOf_fits_iff_decode (i : Instr) (w : CommandWord) : (rowOf i).fits w = true ↔
    ∃ j, decode w = .ok j ∧ mnemonic j = mnemonic i ∧ opcode j = opField w ∧ operand j = dataField w := by
  constructor
  · intro h
    obtain ⟨hop, hfixed⟩ := (rowOf_fits_iff i w).1 h
    exact ⟨_, decode_of_rowOf_fits h, by simp, by simp [hop], operand_withOperand hfixed⟩
  · rintro ⟨j, hdecode, hname, -, -⟩
    rw [← rowOf_eq_of_mnemonic_eq hname, ← encode_of_decode hdecode]
    exact rowOf_fits_encode j

/-- Rows of the table that one word fits are the same: the word decodes to one command (R73). -/
theorem row_eq_of_fits {r q : OpcodeRow} {w : CommandWord} (hr : r ∈ opcodeRows) (hq : q ∈ opcodeRows)
    (hrw : r.fits w = true) (hqw : q.fits w = true) : r = q := by
  obtain ⟨i, rfl⟩ := exists_rowOf_eq hr
  obtain ⟨j, rfl⟩ := exists_rowOf_eq hq
  have hij := Except.ok.inj ((decode_of_rowOf_fits hrw).symm.trans (decode_of_rowOf_fits hqw))
  exact rowOf_eq_of_mnemonic_eq (by simpa using congrArg mnemonic hij)

/-! ## Illegal words -/

/-- The illegal-command check of R77 on a word with a command's OP. -/
theorem isIllegal_opcode (i : Instr) (data : Word) :
    isIllegal (commandWord (opcode i) data) = true ↔ data &&& fixedData i ≠ 0 := by
  simp only [isIllegal, hasReservedOp, hasStrayOperand, hasWideByte, opNumber_commandWord, dataNumber_commandWord]
  cases i with
  | setw _ | setp _ | seti _ | stepw _ => simp [opcode, fixedData]
  | byte _ => simp [opcode, fixedData, and_high_eq_zero_iff]
  | nop | start | finish | abort | clrerr => simp [opcode, fixedData, and_all_data, ← BitVec.toNat_inj]

/-- The decoder rejects exactly the illegal words (R77, R78). -/
theorem isIllegal_iff_decode_error (w : CommandWord) : isIllegal w = true ↔ ∃ why, decode w = .error why := by
  rw [← commandWord_fields w]
  generalize opField w = op, dataField w = data
  obtain ⟨i, rfl⟩ | hop := opcode_cases op
  · rw [isIllegal_opcode, decode_opcode]
    split <;> simpa
  · simp [isIllegal, hasReservedOp, opNumber_commandWord, hop, decode_reserved data hop]

/-- R77's pseudocode, written out over the word's number. -/
theorem isIllegal_iff (w : CommandWord) : isIllegal w = true ↔
    0x0A ≤ w.toNat / 2 ^ 32 ∨
      (w.toNat / 2 ^ 32 ∈ [0x00, 0x04, 0x07, 0x08, 0x09] ∧ w.toNat % 2 ^ 32 ≠ 0) ∨
      (w.toNat / 2 ^ 32 = 0x06 ∧ w.toNat % 2 ^ 32 / 2 ^ 8 ≠ 0) := by
  simp only [isIllegal, hasReservedOp, hasStrayOperand, hasWideByte, Bool.or_eq_true, Bool.and_eq_true,
    decide_eq_true_iff, or_assoc]
  rfl

end Sys2Proof

namespace Sys2Proof.Machine

/-- Presenting a word that the decoder rejects raises ERR_ILL (R77). -/
theorem raisesIllegal_of_decode_error {w : CommandWord} {why : IllegalWord} (h : decode w = .error why) :
    RaisesIllegal w := by
  intro s rest hport
  obtain ⟨hp, -⟩ | ⟨_, hp, -⟩ | ⟨w', rest', _, hp, -, hstep⟩ | ⟨w', rest', _, hp, hd, -⟩ := step_cases s
  · simp [hport] at hp
  · simp [hport] at hp
  · obtain ⟨rfl, rfl⟩ : w = w' ∧ rest = rest' := by simpa [hport] using hp
    exact hstep
  · obtain ⟨rfl, rfl⟩ : w = w' ∧ rest = rest' := by simpa [hport] using hp
    simp [h] at hd

/-- Settles O3: the table's rows are the commands' rows; a word that decodes fits the row of its command. -/
theorem decodeFollowsTheMatchAndMaskTable : Obligations.DecodeFollowsTheMatchAndMaskTable := by
  refine ⟨rfl, fun w => ⟨fun row hrow => ?_, ?_, fun hnone => ?_⟩⟩
  · obtain ⟨i, rfl⟩ := exists_rowOf_eq hrow
    exact rowOf_fits_iff_decode i w
  · have hdistinct : opcodeRows.Pairwise (· ≠ ·) := by decide
    refine hdistinct.imp_of_mem fun hr hq hne hfits => hne ?_
    exact row_eq_of_fits hr hq hfits.1 hfits.2
  · cases hdecode : decode w with
    | error why => exact ⟨why, rfl, raisesIllegal_of_decode_error hdecode⟩
    | ok i =>
      have hfits := rowOf_fits_encode i
      rw [encode_of_decode hdecode, hnone _ (rowOf_mem i)] at hfits
      cases hfits

/-- Settles O6: the check is `isIllegal`, which the decoder follows; the effect is that of raising ERR_ILL. -/
theorem illegalWordsRaiseErrIllAndNothingElse : Obligations.IllegalWordsRaiseErrIllAndNothingElse := fun w =>
  ⟨(isIllegal_iff w).symm.trans (isIllegal_iff_decode_error w),
    fun _ s rest hdecode hport => raisesIllegal_of_decode_error hdecode s rest hport⟩

end Sys2Proof.Machine
end

section
/-! The pseudo-instructions (spec/30_encoding.md R80). -/

namespace Sys2Proof.Machine

/-- TEXT with only empty strings has no character to fold (R80). -/
theorem expandPseudo_text_of_empty (code : Char → Word) {strings : List (List Char)} (h : ∀ cs ∈ strings, cs = []) :
    expandPseudo code (.text strings) = [.start, .finish] := by
  rw [expandPseudo, List.flatten_eq_nil_iff.2 h]
  rfl

/-- Settles O59: TEXT's characters, string by string, are those of the strings put together. -/
theorem pseudoInstructionsExpand : Obligations.PseudoInstructionsExpand := fun code =>
  ⟨fun _ _ _ => rfl, fun _ => rfl,
    fun strings => by rw [expandPseudo, List.map_flatten, List.flatMap_def, List.cons_append],
    fun _ => rfl, fun _ h => expandPseudo_text_of_empty code h, rfl⟩

end Sys2Proof.Machine
end

section
/-! One step of the engine, counted in numbers (spec/40_step_engine.md R101 to R104): masking with mask(w) is the
remainder modulo 2^w, and below bit 32 that remainder does not see what the 32-bit shift drops. So one iteration on
the hardware registers is the one on unbounded numbers, and so is every SR_k. -/

namespace Sys2Proof.Machine

/-! ## The mask -/

/-- mask(w) as a number, for the widths a 32-bit register holds (R102). -/
theorem mask_toNat {w : Nat} (h : w ≤ 32) : (mask w).toNat = 2 ^ w - 1 := by
  have hle : 2 ^ w ≤ 2 ^ 32 := Nat.pow_le_pow_right (by decide) h
  rw [mask, BitVec.toNat_ofNat, Nat.mod_eq_of_lt (by omega)]

/-- Masking to w bits is the remainder modulo 2^w (R102). -/
theorem and_maskNat (n w : Nat) : n &&& maskNat w = n % 2 ^ w := Nat.and_two_pow_sub_one_eq_mod n w

/-- Masking a register is masking its number (R102). -/
theorem and_mask_toNat (v : Word) {w : Nat} (h : w ≤ 32) : (v &&& mask w).toNat = v.toNat &&& maskNat w := by
  rw [BitVec.toNat_and, mask_toNat h, maskNat]

/-- Settles O30: the four values are computed. -/
theorem maskHasExactlyWOnes : Obligations.MaskHasExactlyWOnes := ⟨fun _ => mask_toNat, by decide⟩

/-! ## One iteration -/

/-- One iteration on unbounded numbers, by arithmetic modulo 2^w (R104). -/
theorem shift1Nat_eq_mod (r poly w : Nat) :
    shift1Nat r poly w = if r.testBit (w - 1) then ((2 * r) ^^^ poly) % 2 ^ w else (2 * r) % 2 ^ w := by
  simp only [shift1Nat, and_maskNat, Nat.shiftLeft_eq, pow_one, Nat.mul_comm r 2]

/-- The bit a 32-bit shift drops lies above every width up to 32, so it is gone after the mask (R101). -/
theorem shiftLeft_one_toNat_mod (r : Word) {w : Nat} (h : w ≤ 32) :
    (r <<< 1).toNat % 2 ^ w = (r.toNat <<< 1) % 2 ^ w := by
  rw [BitVec.toNat_shiftLeft, Nat.mod_mod_of_dvd _ (Nat.pow_dvd_pow 2 h)]

/-- One iteration on the 32-bit register is the one on unbounded numbers (R101, R104). -/
theorem shift1_toNat (r poly : Word) {w : Nat} (h : w ≤ 32) :
    (shift1 r poly w).toNat = shift1Nat r.toNat poly.toNat w := by
  rw [shift1, shift1Nat, BitVec.getLsbD]
  split
  · rw [and_mask_toNat _ h, and_maskNat, and_maskNat, BitVec.toNat_xor, Nat.xor_mod_two_pow,
      shiftLeft_one_toNat_mod r h, ← Nat.xor_mod_two_pow]
  · rw [and_mask_toNat _ h, and_maskNat, and_maskNat, shiftLeft_one_toNat_mod r h]

/-- Settles O29: the iteration on unbounded numbers, read modulo 2^w. -/
theorem iterationShiftsXorsAndMasks : Obligations.IterationShiftsXorsAndMasks :=
  ⟨fun r poly w _ h => (shift1_toNat r poly h).trans (shift1Nat_eq_mod r.toNat poly.toNat w), by decide⟩

/-! ## The whole step -/

/-- Every SR_k of the 32-bit engine is that of the definition, by induction on the iterations (R101). -/
theorem shifter_toNat (word poly seed : Word) {w : Nat} (h : w ≤ 32) (k : Nat) :
    (shifter word poly seed w k).toNat = shifterNat word.toNat poly.toNat seed.toNat w k := by
  induction k with
  | zero => rw [shifter_zero, and_mask_toNat _ h, BitVec.toNat_xor, shifterNat]
  | succ k ih => rw [shifter_succ, shift1_toNat _ _ h, ih, shifterNat]

/-- Settles O28: the result is SR_w. -/
theorem stepEngineComputesTheFeedbackShifter : Obligations.StepEngineComputesTheFeedbackShifter :=
  ⟨fun word poly seed w _ h => ⟨fun k _ => shifter_toNat word poly seed h k, shifter_toNat word poly seed h w⟩,
    by decide⟩

end Sys2Proof.Machine
end

section
/-! STEPW, one equation per branch (spec/41_chainer.md R135, R137). -/

namespace Sys2Proof.Machine

section
variable {s : State}

/-- In a chain with no byte buffered STEPW folds its word (R135). -/
theorem exec_stepw_of_active (d : Word) (hactive : s.block.status.active = true) (hbcnt : s.block.status.bcnt = 0) :
    exec (.stepw d) s = complete s (s.block.fold d) :=
  if_neg (by simp [hactive, hbcnt])

/-- With no chain open, or a byte buffered, STEPW is a sequence error (R137). -/
theorem exec_stepw_of_sequenceError (d : Word) (h : s.block.status.active = false ∨ s.block.status.bcnt ≠ 0) :
    exec (.stepw d) s = raiseError .seq s :=
  if_pos h

end

/-- Settles O16: STEPW's word decodes as the round trip of the command; each branch of R135 has its equation. -/
theorem stepwFoldsItsWord : Obligations.StepwFoldsItsWord := fun d _ =>
  ⟨decode_encode (.stepw d), exec_stepw_of_active d, exec_stepw_of_sequenceError d⟩

end Sys2Proof.Machine
end

section
/-! The configuration and control commands (spec/42_control.md). The order of the checks (spec/60_exceptions.md R207)
is said once, as an equation for every command, and each command reads its branches off it. -/

namespace Sys2Proof.Machine

/-! ## The branches of a command, by the check that decides -/

/-- The checks in their order, and what the first one that decides makes the command do (R207, steps 2 to 5). -/
theorem exec_eq_checks (i : Instr) (s : State) : exec i s =
    if lockedOut i s.block.status then unchanged s
    else if sequenceError i s.block.status then raiseError .seq s
    else if badWidth i then raiseError .cfg s
    else complete s (ownEffect i s.block) := by
  obtain ⟨b, h⟩ := exec_next i s
  rw [h]
  obtain ⟨hlock, ht⟩ | ⟨hlock, hseq, ht⟩ | ⟨hlock, hseq, hwidth, ht⟩ | ⟨hlock, hseq, hwidth, ht⟩ := exec_cases h
  · simp [ht, hlock, unchanged]
  · simp [ht, hlock, hseq, raiseError_eq]
  · simp [ht, hlock, hseq, hwidth, raiseError_eq]
  · simp [ht, hlock, hseq, hwidth, complete]

section
variable {i : Instr} {s : State} (hlock : lockedOut i s.block.status = false)
include hlock

/-- A command not allowed in the current state raises ERR_SEQ (R205; R207, step 3). -/
theorem exec_of_sequenceError (hseq : sequenceError i s.block.status = true) : exec i s = raiseError .seq s := by
  simp [exec_eq_checks, hlock, hseq]

variable (hseq : sequenceError i s.block.status = false)
include hseq

/-- A SETW whose operand is no width raises ERR_CFG (R173; R207, step 4). -/
theorem exec_of_badWidth (hwidth : badWidth i = true) : exec i s = raiseError .cfg s := by
  simp [exec_eq_checks, hlock, hseq, hwidth]

/-- A command that no check stops has its own effect (R207, step 5). -/
theorem exec_of_no_check (hwidth : badWidth i = false) : exec i s = complete s (ownEffect i s.block) := by
  simp [exec_eq_checks, hlock, hseq, hwidth]

end

/-- A command without an operand, its DATA not zero, is an illegal word (R74, R77). -/
theorem raisesIllegal_of_stray_operand {i : Instr} (hbare : fixedData i = 0xFFFFFFFF#32) {d : Word} (hd : d ≠ 0) :
    RaisesIllegal (commandWord (opcode i) d) := by
  have hstray : d &&& fixedData i ≠ 0 := by rwa [hbare, and_all_data]
  exact raisesIllegal_of_decode_error ((decode_opcode i d).trans (if_neg hstray))

/-! ## The operand of SETW -/

section
variable {d : Word}

/-- The operand is a width when the whole of DATA, unsigned, is in 1..32 (R173). -/
theorem isWidth_iff : isWidth d = true ↔ 1 ≤ d.toNat ∧ d.toNat ≤ 32 := by
  rw [isWidth, Bool.and_eq_true, decide_eq_true_iff, decide_eq_true_iff]

/-- A SETW is refused for its operand when that lies outside 1..32 (R173). -/
theorem badWidth_setw_iff : badWidth (.setw d) = true ↔ d.toNat < 1 ∨ 32 < d.toNat := by
  rw [badWidth, Bool.not_eq_true', ← Bool.not_eq_true, isWidth_iff]
  omega

/-- The field SETW writes has the operand's value: no width is lost in 6 bits (R173). -/
theorem widthField_toNat (h : d.toNat ≤ 32) : (widthField d).toNat = d.toNat := by
  rw [widthField, BitVec.extractLsb'_toNat, Nat.shiftRight_zero]
  omega

end

/-! ## The obligations -/

/-- Settles O11: only the zero DATA is NOP's, and NOP's own effect is none. -/
theorem nopDoesNothing : Obligations.NopDoesNothing :=
  ⟨decode_encode .nop, fun _ => raisesIllegal_of_stray_operand (i := .nop) rfl,
    fun _ => exec_of_no_check (i := .nop) rfl rfl rfl⟩

/-- Settles O12: the chain is checked before the operand, and a legal width fits in the 6 bits written. -/
theorem setwWritesALegalWidth : Obligations.SetwWritesALegalWidth := by
  refine fun d _ => ⟨decode_encode (.setw d), fun hidle hmin hmax => ⟨?_, widthField_toNat hmax⟩,
    fun hidle hbad => exec_of_badWidth rfl hidle (badWidth_setw_iff.2 hbad),
    fun hactive => exec_of_sequenceError rfl hactive⟩
  have hwidth : badWidth (.setw d) = false := by rw [badWidth, isWidth_iff.2 ⟨hmin, hmax⟩, Bool.not_true]
  exact exec_of_no_check rfl hidle hwidth

/-- Settles O13: only an open chain refuses SETP. -/
theorem setpWritesThePolynomial : Obligations.SetpWritesThePolynomial := fun d _ =>
  ⟨decode_encode (.setp d), fun hidle => exec_of_no_check rfl hidle rfl,
    fun hactive => exec_of_sequenceError rfl hactive⟩

/-- Settles O14: only an open chain refuses SETI. -/
theorem setiWritesTheInitialValue : Obligations.SetiWritesTheInitialValue := fun d _ =>
  ⟨decode_encode (.seti d), fun hidle => exec_of_no_check rfl hidle rfl,
    fun hactive => exec_of_sequenceError rfl hactive⟩

/-- Settles O19: no state refuses ABORT, whose own effect is that of raising ERR_IO. -/
theorem abortReportsAnIoError : Obligations.AbortReportsAnIoError :=
  ⟨decode_encode .abort, fun _ => raisesIllegal_of_stray_operand (i := .abort) rfl,
    fun _ => exec_of_no_check (i := .abort) rfl rfl rfl⟩

/-- Settles O20: no state refuses CLRERR, whose own effect is clearing the four bits. -/
theorem clrerrClearsTheErrorBits : Obligations.ClrerrClearsTheErrorBits :=
  ⟨decode_encode .clrerr, fun _ => raisesIllegal_of_stray_operand (i := .clrerr) rfl,
    fun _ => exec_of_no_check (i := .clrerr) rfl rfl rfl⟩

end Sys2Proof.Machine
end

section
/-! The errors (spec/60_exceptions.md). Which error the next event raises, if any, is said once, for a command and for
a step; an error bit is set after a step exactly when the step raised that error or the bit was set and not cleared. -/

namespace Sys2Proof.Machine

/-! ## Raising an error -/

/-- Settles O21: `Status.raise` at each of the four errors. -/
theorem raiseSetsItsBitAndEndsTheChain : Obligations.RaiseSetsItsBitAndEndsTheChain := fun s =>
  ⟨raiseError_eq .cfg s, raiseError_eq .seq s, raiseError_eq .io s, raiseError_eq .ill s⟩

/-! ## The error bits, update by update -/

section
variable (t : Status) (e : ErrorKind)

@[simp] theorem Status.has_clear : Status.clear.has e = false := by cases e <;> rfl
@[simp] theorem Status.has_opened : t.opened.has e = t.has e := by cases e <;> rfl
@[simp] theorem Status.has_finished : t.finished.has e = t.has e := by cases e <;> rfl
@[simp] theorem Status.has_withBcnt (n : BitVec 2) : (t.withBcnt n).has e = t.has e := by cases e <;> rfl
@[simp] theorem Status.has_clearErrors : t.clearErrors.has e = false := by cases e <;> rfl

end

/-- BYTE in a chain writes no field of STATUS but BCNT (R141). -/
theorem Block.feedByte_status (b : Block) (v : Byte) : ∃ n, (b.feedByte v).status = b.status.withBcnt n := by
  obtain ⟨-, h⟩ | ⟨-, h⟩ := b.feedByte_eq v <;> exact ⟨_, by rw [h, Block.setStatus_status]⟩

/-- FINISH in a chain writes STATUS as `Status.finished` says (R151). -/
@[simp] theorem Block.closeChain_status (b : Block) : b.closeChain.status = b.status.finished := rfl

/-- A command's own effect on the error bits: ABORT sets its bit, CLRERR clears all four, no other touches one (R178,
R181). -/
theorem ownEffect_has (i : Instr) (b : Block) (e : ErrorKind) :
    (ownEffect i b).status.has e = true ↔ i = .abort ∧ e = .io ∨ b.status.has e = true ∧ i ≠ .clrerr := by
  cases i with
  | byte v =>
    obtain ⟨n, h⟩ := b.feedByte_status v
    simp [ownEffect, h]
  | abort => simp [ownEffect, Status.has_raise, @eq_comm _ ErrorKind.io]
  | _ => simp [ownEffect]

/-- Only START's own effect opens a chain (R131). -/
theorem ownEffect_active_of_inactive {i : Instr} {b : Block} (hstart : i ≠ .start)
    (hactive : b.status.active = false) : (ownEffect i b).status.active = false := by
  cases i with
  | start => exact absurd rfl hstart
  | byte v =>
    obtain ⟨n, h⟩ := b.feedByte_status v
    simp [ownEffect, h, hactive]
  | _ => simp [ownEffect, hactive]

/-! ## The error a command raises -/

/-- The error a command raises, by the first check that applies (R207); ABORT's own effect is to raise one (R178). -/
def commandError (i : Instr) (t : Status) : Option ErrorKind :=
  if lockedOut i t then none
  else if sequenceError i t then some .seq
  else if badWidth i then some .cfg
  else if i = .abort then some .io
  else none

/-- A command the error lock keeps from having any effect is in no case of the sequence table (R205, R206). -/
theorem sequenceError_of_lockedOut {i : Instr} {t : Status} (h : lockedOut i t = true) :
    sequenceError i t = false := by
  simp only [lockedOut, Bool.and_eq_true, decide_eq_true_iff] at h
  obtain ⟨rfl, herr⟩ := h
  simp [sequenceError, herr]

/-- In a case of the sequence table the error lock does not decide (R205, R206). -/
theorem lockedOut_of_sequenceError {i : Instr} {t : Status} (h : sequenceError i t = true) :
    lockedOut i t = false := by
  cases hlock : lockedOut i t with
  | false => rfl
  | true => simp [sequenceError_of_lockedOut hlock] at h

/-- Everything a command does to the error bits: it sets the bit of the error it raises and keeps the others, except
that CLRERR clears them (R200, R203). -/
theorem exec_has_iff {i : Instr} {s t : State} (h : exec i s = .next t) (e : ErrorKind) :
    t.block.status.has e = true ↔
      commandError i s.block.status = some e ∨ s.block.status.has e = true ∧ i ≠ .clrerr := by
  obtain ⟨hlock, rfl⟩ | ⟨hlock, hseq, rfl⟩ | ⟨hlock, hseq, hwidth, rfl⟩ | ⟨hlock, hseq, hwidth, rfl⟩ :=
    exec_cases h
  · have hne : i ≠ .clrerr := by rintro rfl; cases hlock
    simp [commandError, hlock, hne]
  · have hne : i ≠ .clrerr := by rintro rfl; cases hseq
    simp [commandError, hlock, hseq, hne, Status.has_raise]
  · have hne : i ≠ .clrerr := by rintro rfl; cases hwidth
    simp [commandError, hlock, hseq, hwidth, hne, Status.has_raise]
  · simp [commandError, hlock, hseq, hwidth, ownEffect_has, @eq_comm _ ErrorKind.io]

/-- ERR_SEQ is raised in the cases of the sequence table (R205). -/
theorem commandError_eq_seq_iff (i : Instr) (t : Status) :
    commandError i t = some .seq ↔ sequenceError i t = true := by
  by_cases hseq : sequenceError i t = true
  · simp [commandError, hseq, lockedOut_of_sequenceError hseq]
  · grind [commandError]

/-- ERR_CFG is raised by SETW with a bad width while no chain is open (R173, R200). -/
theorem commandError_eq_cfg_iff (i : Instr) (t : Status) :
    commandError i t = some .cfg ↔ t.active = false ∧ badWidth i = true := by
  cases i with
  | setw d => cases hactive : t.active <;> simp [commandError, lockedOut, sequenceError, hactive]
  | _ => grind [commandError, badWidth]

/-- ERR_IO is raised by ABORT, in every state (R178, R200). -/
theorem commandError_eq_io_iff (i : Instr) (t : Status) : commandError i t = some .io ↔ i = .abort := by
  by_cases habort : i = .abort
  · simp [commandError, habort, lockedOut, sequenceError, badWidth]
  · grind [commandError]

/-- ERR_ILL is raised by no command, only by an illegal word (R77, R200). -/
theorem commandError_ne_ill (i : Instr) (t : Status) : commandError i t ≠ some .ill := by
  grind [commandError]

/-! ## The error a step raises -/

/-- The error the next event raises: an illegal word ERR_ILL, before every other check, and a command its own (R77,
R207). -/
def State.nextError (s : State) : Option ErrorKind :=
  match s.pending with
  | none => none
  | some (.error _) => some .ill
  | some (.ok i) => commandError i s.block.status

/-- A step raises an error exactly when the next event is one of the error's causes (R200). -/
theorem errorCause_iff (e : ErrorKind) (s : State) : errorCause e s = true ↔ s.nextError = some e := by
  rcases hpending : s.pending with _ | why | i
  · simp [errorCause, State.nextError, hpending]
  · simp [errorCause, State.nextError, hpending, eq_comm]
  · cases e with
    | cfg => simp [errorCause, State.nextError, hpending, commandError_eq_cfg_iff]
    | seq => simp [errorCause, State.nextError, hpending, commandError_eq_seq_iff]
    | io => simp [errorCause, State.nextError, hpending, commandError_eq_io_iff]
    | ill => simp [errorCause, State.nextError, hpending, commandError_ne_ill]

/-- Everything a step does to the error bits: it sets the bit of the error it raises and keeps the others, except that
CLRERR and a reset clear them (R200, R203, R240). -/
theorem step_has_iff {s t : State} (h : step s = .next t) (e : ErrorKind) :
    t.block.status.has e = true ↔ s.nextError = some e ∨
      (s.block.status.has e = true ∧ s.pending ≠ some (.ok .clrerr) ∧ s.port.head? ≠ some .reset) := by
  obtain ⟨hp, hstep⟩ | ⟨rest, hp, hstep⟩ | ⟨w, rest, why, hp, hd, hstep⟩ | ⟨w, rest, i, hp, hd, hstep⟩ :=
    step_cases s
  · obtain rfl : s = t := by simpa [h] using hstep.symm
    simp [State.nextError, State.pending, hp]
  · rw [h] at hstep
    cases hstep
    simp [State.nextError, State.pending, hp, Block.afterReset]
  · rw [h, raiseError_eq] at hstep
    cases hstep
    simp [State.nextError, State.pending, hp, hd, Status.has_raise]
  · rw [exec_has_iff (hstep.symm.trans h)]
    simp [State.nextError, State.pending, hp, hd]

/-- A clear error bit becomes set exactly when the step raises its error (R200). -/
theorem step_has_iff_of_clear {s t : State} (h : step s = .next t) {e : ErrorKind}
    (hclear : s.block.status.has e = false) : t.block.status.has e = true ↔ s.nextError = some e := by
  simp [step_has_iff h, hclear]

/-! ## The order of the checks -/

/-- Under the error lock START has no effect (R206; R207, step 2). -/
theorem exec_of_lockedOut {i : Instr} {s : State} (h : lockedOut i s.block.status = true) : exec i s = .next s := by
  simp [exec_eq_checks, h, unchanged]

section
variable {w : CommandWord} {s : State} {rest : List HostEvent}

/-- Presenting the word of a command runs the command. -/
theorem step_of_decode_ok {i : Instr} (hport : s.port = .command w :: rest) (hdecode : decode w = .ok i) :
    step s = exec i { s with port := rest } := by
  simp [step, nextEvent, hport, hdecode, State.takeEvent]

/-- A word that is not illegal decodes to a command (R78). -/
theorem exists_decode_ok_of_not_illegal (h : isIllegal w = false) : ∃ i, decode w = .ok i := by
  cases hdecode : decode w with
  | ok i => exact ⟨i, rfl⟩
  | error why => simp [(isIllegal_iff_decode_error w).2 ⟨why, hdecode⟩] at h

end

/-! ## The obligations -/

/-- Settles O22: the bit ERR_SEQ is set by the error the command raises, and the table decides when that is ERR_SEQ. -/
theorem sequenceErrorsHaveExactlyTheseCauses : Obligations.SequenceErrorsHaveExactlyTheseCauses := by
  refine fun i s => ⟨fun hseq => exec_of_sequenceError (lockedOut_of_sequenceError hseq) hseq, fun t h hclear => ?_⟩
  have hhas := exec_has_iff h .seq
  simpa [Status.has, hclear, commandError_eq_seq_iff] using hhas

/-- Settles O23: a step sets the bit of the error it raises, whose causes are the table's, and keeps the others. -/
theorem eachErrorBitHasItsCause : Obligations.EachErrorBitHasItsCause := fun e s t h =>
  ⟨t.block.status.toBits_getLsbD_code e,
    fun hclear => (step_has_iff_of_clear h hclear).trans (errorCause_iff e s).symm,
    fun hset hclrerr hreset => (step_has_iff h e).2 (.inr ⟨hset, hclrerr, hreset⟩)⟩

/-- Under the error lock every command but CLRERR leaves an error recorded and no chain open (R204, R206). -/
theorem exec_keeps_errorLock {i : Instr} {s t : State} (h : exec i s = .next t) (hi : i ≠ .clrerr)
    (herr : s.block.status.errorSet = true) (hactive : s.block.status.active = false) :
    t.block.status.errorSet = true ∧ t.block.status.active = false := by
  constructor
  · obtain ⟨e, he⟩ := (Status.errorSet_iff_has _).1 herr
    exact (Status.errorSet_iff_has _).2 ⟨e, (exec_has_iff h e).2 (.inr ⟨he, hi⟩)⟩
  · obtain ⟨-, rfl⟩ | ⟨-, -, rfl⟩ | ⟨-, -, -, rfl⟩ | ⟨hlock, -, -, rfl⟩ := exec_cases h
    · exact hactive
    · exact Status.raise_active _ _
    · exact Status.raise_active _ _
    · have hstart : i ≠ .start := by rintro rfl; simp [lockedOut, herr] at hlock
      exact ownEffect_active_of_inactive hstart hactive

/-- Settles O24: by the invariant no chain is open under an error (R204), so each command's branch is the one
with ACTIVE = 0. -/
theorem errorLockRefusesANewChain : Obligations.ErrorLockRefusesANewChain := by
  intro s hinv herr
  obtain ⟨-, hlocked, -, -⟩ := hinv
  obtain ⟨hactive, -, -⟩ := hlocked herr
  refine ⟨exec_of_lockedOut (by simp [lockedOut, herr]), fun d => exec_stepw_of_sequenceError d (.inl hactive),
    fun v => exec_of_sequenceError rfl (by simp [sequenceError, hactive]),
    exec_of_sequenceError rfl (by simp [sequenceError, hactive]),
    fun d hwidth => exec_of_no_check rfl hactive (by simp [badWidth, hwidth]),
    fun d hwidth => exec_of_badWidth rfl hactive (by simp [badWidth, hwidth]),
    fun d => exec_of_no_check rfl hactive rfl, fun d => exec_of_no_check rfl hactive rfl, rfl, rfl, rfl,
    fun i t h hi => exec_keeps_errorLock h hi herr hactive⟩

/-- Settles O26: the checks are those of `exec_eq_checks`; a step raises one error, so two bits newly set are one. -/
theorem checksAreMadeInOrder : Obligations.ChecksAreMadeInOrder := by
  refine fun w s rest hport => ⟨fun hill => ?_, fun hlegal => ?_, fun t e f h he he' hf hf' => ?_⟩
  · obtain ⟨why, hdecode⟩ := (isIllegal_iff_decode_error w).1 hill
    exact raisesIllegal_of_decode_error hdecode s rest hport
  · obtain ⟨i, hdecode⟩ := exists_decode_ok_of_not_illegal hlegal
    have hstep := step_of_decode_ok hport hdecode
    exact ⟨i, hdecode, fun hlock => hstep.trans (exec_of_lockedOut hlock),
      fun hlock hseq => hstep.trans (exec_of_sequenceError hlock hseq),
      fun hlock hseq hwidth => hstep.trans (exec_of_badWidth hlock hseq hwidth),
      fun hlock hseq hwidth => hstep.trans (exec_of_no_check hlock hseq hwidth)⟩
  · have hraised := (step_has_iff_of_clear h he).1 he'
    have hraised' := (step_has_iff_of_clear h hf).1 hf'
    exact Option.some.inj (hraised.symm.trans hraised')

end Sys2Proof.Machine
end

section
/-! The round trip of the command words (spec/30_encoding.md R70 to R78). -/

namespace Sys2Proof

/-- Settles O1: the round trip of one command, `decode_encode`. -/
theorem decodeOfEncodeIsTheCommand : Obligations.DecodeOfEncodeIsTheCommand := decode_encode

/-- Settles O2: a word that decodes is laid out from its command's OP and operand, `encode_of_decode`. -/
theorem decodedWordIsItsEncoding : Obligations.DecodedWordIsItsEncoding := fun _ _ => encode_of_decode

/-- Settles O5: the words are concrete, so the decoder is run on each. -/
theorem sampleWordsDecode : Obligations.SampleWordsDecode := by
  unfold Obligations.SampleWordsDecode
  decide

end Sys2Proof
end

section
/-! What one step can do (spec/00_scope.md R12, spec/10_state.md R31), read off its result: first for the whole
machine, then for the block. The rules that hold of every step follow from the second. -/

namespace Sys2Proof.Machine

section
variable {s t : State}

/-- Everything a step can have done, by what the host presented. -/
theorem step_next_cases (h : step s = .next t) :
    (s.port = [] ∧ t = s) ∨
    (s.port.head? = some .reset ∧
      t = { block := Block.afterReset s.draws, port := s.port.tail, draws := s.draws + 1 }) ∨
    (∃ why, s.pending = some (.error why) ∧ t = s.takeEvent.withBlock (s.block.raise .ill)) ∨
    (∃ i, s.pending = some (.ok i) ∧ exec i s.takeEvent = .next t) := by
  obtain ⟨hp, hstep⟩ | ⟨rest, hp, hstep⟩ | ⟨w, rest, why, hp, hd, hstep⟩ | ⟨w, rest, i, hp, hd, hstep⟩ :=
    step_cases s
  · rw [h] at hstep
    exact .inl ⟨hp, Host.Outcome.next.inj hstep⟩
  · rw [h] at hstep
    exact .inr (.inl ⟨by rw [hp]; rfl, by rw [Host.Outcome.next.inj hstep, hp]; rfl⟩)
  · rw [h, raiseError_eq] at hstep
    refine .inr (.inr (.inl ⟨why, by simp [State.pending, hp, hd], ?_⟩))
    rw [Host.Outcome.next.inj hstep, State.takeEvent, hp]
    rfl
  · refine .inr (.inr (.inr ⟨i, by simp [State.pending, hp, hd], ?_⟩))
    rw [← h, hstep, State.takeEvent, hp]
    rfl

/-- Everything a step can have done to the block: hold it, reset it, raise an error, or perform a command that no check
stops (R77, R207, R240). -/
theorem step_block_cases (h : step s = .next t) :
    t.block = s.block ∨
    (s.port.head? = some .reset ∧ t.block = Block.afterReset s.draws) ∨
    (∃ e, t.block = s.block.raise e) ∨
    (∃ i, s.pending = some (.ok i) ∧ lockedOut i s.block.status = false ∧
      sequenceError i s.block.status = false ∧ badWidth i = false ∧ t.block = ownEffect i s.block) := by
  obtain ⟨-, rfl⟩ | ⟨hreset, rfl⟩ | ⟨why, -, rfl⟩ | ⟨i, hpending, hexec⟩ := step_next_cases h
  · exact .inl rfl
  · exact .inr (.inl ⟨hreset, rfl⟩)
  · exact .inr (.inr (.inl ⟨.ill, rfl⟩))
  · obtain ⟨-, rfl⟩ | ⟨-, -, rfl⟩ | ⟨-, -, -, rfl⟩ | ⟨hlock, hseq, hwidth, rfl⟩ := exec_cases hexec
    · exact .inl rfl
    · exact .inr (.inr (.inl ⟨.seq, rfl⟩))
    · exact .inr (.inr (.inl ⟨.cfg, rfl⟩))
    · exact .inr (.inr (.inr ⟨i, hpending, hlock, hseq, hwidth, rfl⟩))

/-- While the host presents nothing the block holds its state (R216). -/
theorem step_of_port_nil (h : s.port = []) : step s = .next s := by
  simp [step, nextEvent, h, performIdle, unchanged]

/-- No step stops the machine (R208). -/
theorem exists_step_next (s : State) : ∃ t, step s = .next t := by
  obtain ⟨-, h⟩ | ⟨_, -, h⟩ | ⟨_, _, _, -, -, h⟩ | ⟨_, rest, i, -, -, h⟩ := step_cases s
  · exact ⟨_, h⟩
  · exact ⟨_, h⟩
  · exact ⟨_, h⟩
  · obtain ⟨b, hb⟩ := exec_next i { s with port := rest }
    exact ⟨_, h.trans hb⟩

/-- A command changes nothing of the machine but the block. -/
theorem exec_port_draws {i : Instr} (h : exec i s = .next t) : t.port = s.port ∧ t.draws = s.draws := by
  obtain ⟨b, hb⟩ := exec_next i s
  obtain rfl : s.withBlock b = t := Host.Outcome.next.inj (hb.symm.trans h)
  exact ⟨rfl, rfl⟩

/-- A word pending is no reset. -/
theorem head_ne_reset_of_pending {r : Except IllegalWord Instr} (h : s.pending = some r) :
    s.port.head? ≠ some .reset := by
  intro hreset
  obtain ⟨rest, hp⟩ := List.head?_eq_some_iff.1 hreset
  simp [State.pending, hp] at h

end

/-- Settles O7: presenting the word of a command runs the command, `step_of_decode_ok`. -/
theorem stepRunsTheDecodedCommand : Obligations.StepRunsTheDecodedCommand := fun _ _ _ _ => step_of_decode_ok

/-- Settles O8: `step_of_port_nil`. -/
theorem stepWithNoEventHoldsTheState : Obligations.StepWithNoEventHoldsTheState := fun _ => step_of_port_nil

/-- Settles O10: in each case of a step, what remains of the host's events and the counter are read off its result. -/
theorem everyStepGoesOnAndTakesAtMostOneEvent : Obligations.EveryStepGoesOnAndTakesAtMostOneEvent := by
  intro s
  obtain ⟨t, h⟩ := exists_step_next s
  refine ⟨t, h, ?_⟩
  obtain ⟨hp, rfl⟩ | ⟨hreset, rfl⟩ | ⟨why, hpending, rfl⟩ | ⟨i, hpending, hexec⟩ := step_next_cases h
  · simp [hp]
  · simp [hreset]
  · simp [head_ne_reset_of_pending hpending]
  · obtain ⟨hport, hdraws⟩ := exec_port_draws hexec
    simp [hport, hdraws, head_ne_reset_of_pending hpending]

end Sys2Proof.Machine
end

section
/-! A command as a function of the block: one effect, by the first check that decides (spec/60_exceptions.md R207). -/

namespace Sys2Proof.Machine

/-- What a command leaves of the block, by the first check that decides (R207). -/
def commandEffect (i : Instr) (b : Block) : Block :=
  if lockedOut i b.status then b
  else if sequenceError i b.status then b.raise .seq
  else if badWidth i then b.raise .cfg
  else ownEffect i b

/-- A command completes with its effect on the block, whatever check decides. -/
theorem exec_eq_commandEffect (i : Instr) (s : State) : exec i s = .next (s.withBlock (commandEffect i s.block)) := by
  rw [exec_eq_checks, commandEffect]
  (repeat' split) <;> rfl

section
variable {i : Instr} {s t : State}

/-- The machine after a command. -/
theorem eq_of_exec (h : exec i s = .next t) : t = s.withBlock (commandEffect i s.block) := by
  rw [exec_eq_commandEffect] at h
  exact (Host.Outcome.next.inj h).symm

/-- What holds of the block as it was, after any error and after the command's own effect holds after the command. -/
theorem commandEffect_cases {P : Block → Prop} {b : Block} (hold : P b) (hraise : ∀ e, P (b.raise e))
    (hown : lockedOut i b.status = false → sequenceError i b.status = false → badWidth i = false →
      P (ownEffect i b)) : P (commandEffect i b) := by
  rw [commandEffect]
  split
  · exact hold
  split
  · exact hraise .seq
  split
  · exact hraise .cfg
  · exact hown (by simp_all) (by simp_all) (by simp_all)

end

end Sys2Proof.Machine
end

section
/-! The chain commands (spec/41_chainer.md): START, BYTE and FINISH, one equation per branch of their rules. -/

namespace Sys2Proof.Machine

/-! ## The word splitter, by the byte count -/

section
variable (v : Byte) {b : Block}

/-- The first byte of a group goes to B0 (R141). -/
theorem Block.feedByte_of_bcnt_zero (h : b.status.bcnt = 0) :
    b.feedByte v = { b with b0 := v, status := { b.status with bcnt := 1 } } := by
  simp [Block.feedByte, Block.storeByte, h, Block.setStatus, Status.withBcnt]

/-- The second byte of a group goes to B1 (R141). -/
theorem Block.feedByte_of_bcnt_one (h : b.status.bcnt = 1) :
    b.feedByte v = { b with b1 := v, status := { b.status with bcnt := 2 } } := by
  simp [Block.feedByte, Block.storeByte, h, Block.setStatus, Status.withBcnt]

/-- The third byte of a group goes to B2 (R141). -/
theorem Block.feedByte_of_bcnt_two (h : b.status.bcnt = 2) :
    b.feedByte v = { b with b2 := v, status := { b.status with bcnt := 3 } } := by
  simp [Block.feedByte, Block.storeByte, h, Block.setStatus, Status.withBcnt]

/-- The fourth byte of a group folds the group (R141). -/
theorem Block.feedByte_of_bcnt_three (h : b.status.bcnt = 3) :
    b.feedByte v = { b with
      crc := crcStep (groupWord b.b0 b.b1 b.b2 v) b.poly b.crc b.width.toNat
      status := { b.status with bcnt := 0 } } :=
  if_pos h

end

/-! ## Closing a chain, by the partial group -/

section
variable {b : Block}

/-- Closing a chain between groups folds nothing (R151). -/
theorem Block.closeChain_of_bcnt_zero (h : b.status.bcnt = 0) : b.closeChain = b.setStatus b.status.finished := by
  simp [Block.closeChain, Block.foldPartial, partialWord, h]

/-- Closing a chain with a partial group folds its word (R151). -/
theorem Block.closeChain_of_partialWord {word : Word} (h : partialWord b = some word) :
    b.closeChain = (b.fold word).setStatus b.status.finished := by
  simp [Block.closeChain, Block.foldPartial, h]

end

/-! ## The effects of the commands, where no check stops them -/

section
variable {b : Block}

/-- START on an idle block opens a chain (R131). -/
theorem commandEffect_start (h : b.Idle) : commandEffect .start b = b.openChain := by
  obtain ⟨herr, hactive⟩ := h
  simp [commandEffect, lockedOut, sequenceError, badWidth, ownEffect, herr, hactive]

/-- STEPW between groups of a chain folds its word (R135). -/
theorem commandEffect_stepw (d : Word) (hactive : b.status.active = true) (hbcnt : b.status.bcnt = 0) :
    commandEffect (.stepw d) b = b.fold d := by
  simp [commandEffect, lockedOut, sequenceError, badWidth, ownEffect, hactive, hbcnt]

/-- BYTE in a chain feeds the word splitter (R141). -/
theorem commandEffect_byte (v : Byte) (hactive : b.status.active = true) :
    commandEffect (.byte v) b = b.feedByte v := by
  simp [commandEffect, lockedOut, sequenceError, badWidth, ownEffect, hactive]

/-- FINISH in a chain closes it (R151). -/
theorem commandEffect_finish (hactive : b.status.active = true) : commandEffect .finish b = b.closeChain := by
  simp [commandEffect, lockedOut, sequenceError, badWidth, ownEffect, hactive]

end

section
variable {s : State}

/-- With no error and no chain open START opens a chain (R131). -/
theorem exec_start_of_idle (h : s.block.Idle) : exec .start s = .next (s.withBlock s.block.openChain) := by
  rw [exec_eq_commandEffect, commandEffect_start h]

/-- In a chain BYTE feeds the word splitter (R141). -/
theorem exec_byte_of_active {v : Byte} {b : Block} (h : s.block.status.active = true) (hb : s.block.feedByte v = b) :
    exec (.byte v) s = .next (s.withBlock b) := by
  rw [exec_eq_commandEffect, commandEffect_byte v h, hb]

/-- In a chain with a partial group FINISH folds its word and closes the chain (R151). -/
theorem exec_finish_of_partialWord {word : Word} (h : s.block.status.active = true)
    (hword : partialWord s.block = some word) :
    exec .finish s = .next (s.withBlock ((s.block.fold word).setStatus s.block.status.finished)) := by
  rw [exec_finish_of_active h, Block.closeChain_of_partialWord hword]

end

/-- A BYTE with a bit of DATA[31:8] set is an illegal word (R75, R77). -/
theorem raisesIllegal_of_wide_byte {d : Word} (h : 2 ^ 8 ≤ d.toNat) : RaisesIllegal (commandWord 0x06 d) := by
  have hwide : d &&& fixedData (.byte 0) ≠ 0 := fun hzero => by
    have := and_high_eq_zero_iff.1 hzero
    omega
  exact raisesIllegal_of_decode_error ((decode_opcode (.byte 0) d).trans (if_neg hwide))

/-! ## The obligations -/

/-- Settles O15: the lock is checked first, then the open chain; what is left is START's own effect. -/
theorem startOpensAChain : Obligations.StartOpensAChain := by
  refine ⟨decode_encode .start, fun _ => raisesIllegal_of_stray_operand (i := .start) rfl,
    fun s => ⟨fun herr hactive => exec_start_of_idle ⟨herr, hactive⟩, fun herr hactive => ?_, fun herr => ?_⟩⟩
  · exact exec_of_sequenceError (by simp [lockedOut, herr]) (by simp [sequenceError, herr, hactive])
  · exact exec_of_lockedOut (by simp [lockedOut, herr])

/-- Settles O17: in a chain BYTE feeds the splitter, whose equations go by the byte count. -/
theorem byteFeedsTheWordSplitter : Obligations.ByteFeedsTheWordSplitter :=
  ⟨fun _ => raisesIllegal_of_wide_byte, fun v _ => ⟨decode_encode (.byte v),
    fun hactive hbcnt => exec_byte_of_active hactive (Block.feedByte_of_bcnt_zero v hbcnt),
    fun hactive hbcnt => exec_byte_of_active hactive (Block.feedByte_of_bcnt_one v hbcnt),
    fun hactive hbcnt => exec_byte_of_active hactive (Block.feedByte_of_bcnt_two v hbcnt),
    fun hactive hbcnt => exec_byte_of_active hactive (Block.feedByte_of_bcnt_three v hbcnt),
    fun hactive => exec_of_sequenceError rfl (by simp [sequenceError, hactive])⟩⟩

/-- Settles O18: in a chain FINISH closes it, folding the partial group's word where there is one. -/
theorem finishClosesTheChain : Obligations.FinishClosesTheChain := by
  refine ⟨decode_encode .finish, fun _ => raisesIllegal_of_stray_operand (i := .finish) rfl,
    fun s => ⟨fun hactive hbcnt => ?_, fun hactive hbcnt => ?_, fun hactive hbcnt => ?_, fun hactive hbcnt => ?_,
      fun hactive => exec_of_sequenceError rfl (by simp [sequenceError, hactive])⟩⟩
  · rw [exec_finish_of_active hactive, Block.closeChain_of_bcnt_zero hbcnt]
    rfl
  · exact exec_finish_of_partialWord hactive (by simp [partialWord, hbcnt])
  · exact exec_finish_of_partialWord hactive (by simp [partialWord, hbcnt])
  · exact exec_finish_of_partialWord hactive (by simp [partialWord, hbcnt])

end Sys2Proof.Machine
end

section
/-! The laws and corner cases of the step engine (spec/40_step_engine.md sections 2 and 3), from what the bits of one
iteration are, by induction on the iterations. -/

namespace Sys2Proof.Machine

/-! ## Range and independence of high bits -/

section
variable (word poly seed : Word) (w : Nat)

/-- Every SR_k is below 2^w: it has no bit at or above w (R107). -/
theorem shifter_lt (k : Nat) : (shifter word poly seed w k).toNat < 2 ^ w :=
  Nat.lt_pow_two_of_testBit _ fun _ hi => shifter_high word poly seed w k _ hi

/-- The result of a step is below 2^w (R107). -/
theorem crcStep_lt : (crcStep word poly seed w).toNat < 2 ^ w := shifter_lt word poly seed w w

end

section
variable {word word' poly poly' seed seed' : Word} {w : Nat}

/-- One iteration reads the polynomial below bit w only (R108). -/
theorem shift1_congr_poly (r : Word) (hpoly : ∀ j < w, poly.getLsbD j = poly'.getLsbD j) :
    shift1 r poly w = shift1 r poly' w := by
  refine BitVec.eq_of_getLsbD_eq fun i _ => ?_
  rw [shift1_getLsbD, shift1_getLsbD]
  by_cases hi : i < w
  · rw [hpoly i hi]
  · simp [hi]

/-- Masking forgets all but the bits below w (R102). -/
theorem and_mask_congr {v v' : Word} (h : ∀ j < w, v.getLsbD j = v'.getLsbD j) : v &&& mask w = v' &&& mask w := by
  refine BitVec.eq_of_getLsbD_eq fun i _ => ?_
  rw [and_mask_getLsbD, and_mask_getLsbD]
  by_cases hi : i < w
  · rw [h i hi]
  · simp [hi]

/-- Seed and word enter every SR_k through the bits of their XOR below w, and the polynomial through its bits below w
(R108, R109, R117). -/
theorem shifter_congr (hstart : ∀ j < w, (seed ^^^ word).getLsbD j = (seed' ^^^ word').getLsbD j)
    (hpoly : ∀ j < w, poly.getLsbD j = poly'.getLsbD j) (k : Nat) :
    shifter word poly seed w k = shifter word' poly' seed' w k := by
  induction k with
  | zero => exact and_mask_congr hstart
  | succ k ih => rw [shifter_succ, shifter_succ, ih, shift1_congr_poly _ hpoly]

/-- `shifter_congr` for the result. -/
theorem crcStep_congr (hstart : ∀ j < w, (seed ^^^ word).getLsbD j = (seed' ^^^ word').getLsbD j)
    (hpoly : ∀ j < w, poly.getLsbD j = poly'.getLsbD j) :
    crcStep word poly seed w = crcStep word' poly' seed' w :=
  shifter_congr hstart hpoly w

/-- A step depends on seed and word only through their XOR (R109). -/
theorem crcStep_congr_xor (h : seed ^^^ word = seed' ^^^ word') :
    crcStep word poly seed w = crcStep word' poly seed' w :=
  crcStep_congr (fun _ _ => by rw [h]) fun _ _ => rfl

end

/-! ## Linearity -/

section
variable (a b s t poly : Word) (w : Nat)

/-- One iteration is linear over XOR (R110). -/
theorem shift1_xor : shift1 (a ^^^ b) poly w = shift1 a poly w ^^^ shift1 b poly w := by
  refine BitVec.eq_of_getLsbD_eq fun i _ => ?_
  have hbit : ∀ inside low a₁ b₁ a₂ b₂ p : Bool,
      (inside && ((low && (a₁ ^^ b₁)) ^^ ((a₂ ^^ b₂) && p))) =
        ((inside && ((low && a₁) ^^ (a₂ && p))) ^^ (inside && ((low && b₁) ^^ (b₂ && p)))) := by
    decide
  simp only [BitVec.getLsbD_xor, shift1_getLsbD, hbit]

/-- Every SR_k is linear over XOR in word and seed together (R110). -/
theorem shifter_xor (k : Nat) :
    shifter (a ^^^ b) poly (s ^^^ t) w k = shifter a poly s w k ^^^ shifter b poly t w k := by
  induction k with
  | zero =>
    have hpair : (s ^^^ t) ^^^ (a ^^^ b) = (s ^^^ a) ^^^ (t ^^^ b) := by ac_rfl
    rw [shifter_zero, shifter_zero, shifter_zero, hpair]
    refine BitVec.eq_of_getLsbD_eq fun i _ => ?_
    simp only [BitVec.getLsbD_xor, and_mask_getLsbD, Bool.and_xor_distrib_right]
  | succ k ih => rw [shifter_succ, ih, shift1_xor]; rfl

/-- The step of zeros is zero, being its own XOR with itself (R110). -/
theorem crcStep_zero : crcStep 0 poly 0 w = 0 := by
  have h : crcStep 0 poly 0 w = crcStep 0 poly 0 w ^^^ crcStep 0 poly 0 w := shifter_xor 0 0 0 0 poly w w
  rwa [BitVec.xor_self] at h

end

/-! ## Corner cases -/

section
variable {word poly seed : Word} {w : Nat}

/-- A register value with no bit below w and none above is zero. -/
theorem crcStep_eq_zero (h : ∀ j < w, (crcStep word poly seed w).getLsbD j = false) : crcStep word poly seed w = 0 := by
  refine BitVec.eq_of_getLsbD_eq fun i _ => ?_
  refine Eq.trans ?_ BitVec.getLsbD_zero.symm
  by_cases hi : i < w
  · exact h i hi
  · exact shifter_high word poly seed w w i (by omega)

/-- With a zero polynomial k iterations only shift: the k low bits of SR_k are zero (R113). -/
theorem shifter_low_of_zero_poly (hpoly : ∀ j < w, poly.getLsbD j = false) {k i : Nat} (hi : i < k) :
    (shifter word poly seed w k).getLsbD i = false := by
  induction k generalizing i with
  | zero => omega
  | succ k ih =>
    rw [shifter_succ, shift1_getLsbD]
    by_cases hiw : i < w
    · rw [hpoly i hiw]
      rcases i with _ | i
      · simp
      · simp [ih (i := i) (by omega)]
    · simp [hiw]

/-- From seed 0 the word 1 is only shifted before the last iteration (R119). -/
theorem shifter_one_getLsbD (h : w ≤ 32) {k : Nat} (hk : k < w) (i : Nat) :
    (shifter 1 poly 0 w k).getLsbD i = decide (i = k) := by
  induction k generalizing i with
  | zero =>
    have hone : (0 ^^^ 1 : Word) = 1#32 := rfl
    rw [shifter_zero, and_mask_getLsbD, hone, BitVec.getLsbD_one]
    by_cases hi : i = 0
    · simp [hi, hk]
    · simp [hi]
  | succ k ih =>
    have hk' : k < w := by omega
    have hmsb : decide (w - 1 = k) = false := decide_eq_false (by omega)
    rw [shifter_succ, shift1_getLsbD, ih hk', ih hk', hmsb, Bool.false_and, Bool.xor_false]
    simp only [← Bool.decide_and, decide_eq_decide]
    omega

end

/-! ## The obligations -/

/-- Settles O31: `crcStep_lt`. -/
theorem stepResultFitsInTheWidth : Obligations.StepResultFitsInTheWidth := fun word poly seed w _ _ =>
  Nat.le_sub_one_of_lt (crcStep_lt word poly seed w)

/-- Settles O32: `crcStep_congr`, the XOR of seed and word agreeing where both do. -/
theorem stepIgnoresBitsAboveTheWidth : Obligations.StepIgnoresBitsAboveTheWidth := by
  intro word word' poly poly' seed seed' w _ _ hword hpoly hseed
  exact crcStep_congr (fun j hj => by rw [BitVec.getLsbD_xor, BitVec.getLsbD_xor, hword j hj, hseed j hj]) hpoly

/-- Settles O33: all three pairs of seed and word have the same XOR. -/
theorem seedAndWordEnterThroughTheirXor : Obligations.SeedAndWordEnterThroughTheirXor := fun word _ seed _ =>
  ⟨crcStep_congr_xor (by simp [BitVec.xor_comm]), crcStep_congr_xor (by simp [BitVec.xor_comm])⟩

/-- Settles O34: linearity of every SR_k, at k = w. -/
theorem stepIsLinearOverXor : Obligations.StepIsLinearOverXor := fun a b s t poly w _ _ =>
  ⟨shifter_xor a b s t poly w w, crcStep_zero poly w⟩

/-- Settles O35: after w iterations all w bits have been shifted out. -/
theorem zeroPolynomialGivesZero : Obligations.ZeroPolynomialGivesZero := fun _ _ _ _ _ _ hpoly =>
  crcStep_eq_zero fun _ hj => shifter_low_of_zero_poly hpoly hj

/-- Settles O36: the XOR of word and seed is zero below the width, so the step is that of zeros. -/
theorem wordEqualToSeedGivesZero : Obligations.WordEqualToSeedGivesZero := by
  intro word poly seed w _ _ hsame
  rw [← crcStep_zero poly w]
  exact crcStep_congr (fun j hj => by simp [hsame j hj]) fun _ _ => rfl

/-- Settles O37: the one iteration, bit by bit. -/
theorem widthOneStepIsOneProduct : Obligations.WidthOneStepIsOneProduct := by
  intro word poly seed
  refine BitVec.eq_of_getLsbD_eq fun i _ => ?_
  have hone : (1 : Word) = 1#32 := rfl
  rw [crcStep, shifter_succ, shift1_getLsbD, shifter_zero, and_mask_getLsbD, BitVec.getLsbD_and, BitVec.getLsbD_and,
    hone, BitVec.getLsbD_one]
  rcases i with _ | i
  · simp [mask]
  · simp

/-- Settles O38: before the last iteration the register holds bit w-1 only, so the last one leaves the polynomial. -/
theorem unitWordGivesThePolynomial : Obligations.UnitWordGivesThePolynomial := by
  intro poly w hmin hmax
  obtain ⟨k, rfl⟩ : ∃ k, w = k + 1 := ⟨w - 1, by omega⟩
  refine BitVec.eq_of_getLsbD_eq fun i hi => ?_
  rw [crcStep, shifter_succ, shift1_getLsbD, shifter_one_getLsbD hmax (by omega),
    shifter_one_getLsbD hmax (by omega), and_mask_getLsbD]
  by_cases hiw : i < k + 1
  · have hshifted : (decide (1 ≤ i) && decide (i - 1 = k)) = false := by
      simp only [Bool.and_eq_false_iff, decide_eq_false_iff_not]
      omega
    simp [hi, hiw, hshifted]
  · simp [hiw]

end Sys2Proof.Machine
end

section
/-! The polynomial meaning of a step (spec/40_step_engine.md section 2): one iteration multiplies the register by x
modulo the generator x^w + poly(x) over GF(2), so SR_k is SR_0 times x^k modulo it, and SR_w, of degree below w, is the
remainder. -/

namespace Sys2Proof.Machine

open Polynomial

/-- The low w bits of a register, read as a polynomial over GF(2). -/
noncomputable def bitPolynomial (w : Nat) (v : Word) : (ZMod 2)[X] :=
  ∑ i ∈ Finset.range w, if v.getLsbD i then X ^ i else 0

/-- The generator: x^w plus the polynomial of POLY. -/
noncomputable def generator (w : Nat) (poly : Word) : (ZMod 2)[X] := X ^ w + bitPolynomial w poly

section
variable (w : Nat) (word poly seed v : Word)

/-- The coefficients are the bits below w. -/
theorem coeff_bitPolynomial (n : Nat) :
    (bitPolynomial w v).coeff n = if n < w ∧ v.getLsbD n = true then 1 else 0 := by
  have hterm (i : Nat) : (if v.getLsbD i then X ^ i else 0 : (ZMod 2)[X]).coeff n =
      if n = i then (if v.getLsbD n then 1 else 0) else 0 := by
    split
    next hi =>
      rw [coeff_X_pow]
      split
      next h => rw [h, if_pos hi]
      next => rfl
    next hi =>
      split
      next h => rw [h, if_neg hi, coeff_zero]
      next => exact coeff_zero n
  rw [bitPolynomial, finsetSum_coeff, Finset.sum_congr rfl fun i _ => hterm i, Finset.sum_ite_eq, ite_and]
  simp only [Finset.mem_range]

/-- A register's polynomial has degree below w. -/
theorem degree_bitPolynomial_lt : (bitPolynomial w v).degree < w := by
  refine (degree_lt_iff_coeff_zero _ _).2 fun n hn => ?_
  rw [coeff_bitPolynomial, if_neg (by omega)]

/-- The generator is monic. -/
theorem generator_monic : (generator w poly).Monic := monic_X_pow_add (degree_bitPolynomial_lt w poly)

/-- The generator has degree w. -/
theorem degree_generator : (generator w poly).degree = w :=
  (degree_add_eq_left_of_degree_lt (by simpa using degree_bitPolynomial_lt w poly)).trans (degree_X_pow w)

/-- Multiplying by x moves each coefficient up by one. -/
theorem coeff_X_mul_bitPolynomial (n : Nat) : (X * bitPolynomial w v).coeff n =
    if n ≤ w ∧ (decide (1 ≤ n) && v.getLsbD (n - 1)) = true then 1 else 0 := by
  cases n with
  | zero => simp
  | succ n => simp [coeff_X_mul, coeff_bitPolynomial]

/-- One iteration multiplies by x and takes the generator away when bit w-1 was one (R104): below w both add the
polynomial's bit, and at w the generator's leading term cancels the bit shifted out. -/
theorem bitPolynomial_shift1 (hmin : 1 ≤ w) (hmax : w ≤ 32) :
    bitPolynomial w (shift1 v poly w) =
      X * bitPolynomial w v + if v.getLsbD (w - 1) then generator w poly else 0 := by
  have hxor : ∀ low msb p : Bool, (if (low ^^ (msb && p)) = true then 1 else 0 : ZMod 2) =
      (if low = true then 1 else 0) + if msb = true then (if p = true then 1 else 0) else 0 := by
    decide
  have hcancel : ∀ msb : Bool, (0 : ZMod 2) =
      (if msb = true then 1 else 0) + if msb = true then 1 else 0 := by
    decide
  ext n
  rw [coeff_add, coeff_bitPolynomial, shift1_getLsbD, coeff_X_mul_bitPolynomial, apply_ite (coeff · n), generator,
    coeff_add, coeff_X_pow, coeff_bitPolynomial, coeff_zero]
  obtain hn | rfl | hn := lt_trichotomy n w
  · have hn32 : n < 32 := by omega
    simpa only [hn, hn32, hn.le, hn.ne, true_and, decide_true, Bool.true_and, if_false, zero_add] using hxor _ _ _
  · simpa [hmin] using hcancel _
  · simp [hn.not_ge, hn.ne', hn.not_gt]

/-- SR_k is SR_0 times x^k, modulo the generator. -/
theorem generator_dvd_shifter (hmin : 1 ≤ w) (hmax : w ≤ 32) (k : Nat) :
    generator w poly ∣ bitPolynomial w (seed ^^^ word) * X ^ k - bitPolynomial w (shifter word poly seed w k) := by
  induction k with
  | zero =>
    have hstart : bitPolynomial w (shifter word poly seed w 0) = bitPolynomial w (seed ^^^ word) := by
      ext n
      rw [coeff_bitPolynomial, coeff_bitPolynomial, shifter_zero, and_mask_getLsbD]
      by_cases hn : n < w <;> simp [hn]
    simp [hstart]
  | succ k ih =>
    have hstep : bitPolynomial w (seed ^^^ word) * X ^ (k + 1) - bitPolynomial w (shifter word poly seed w (k + 1)) =
        (bitPolynomial w (seed ^^^ word) * X ^ k - bitPolynomial w (shifter word poly seed w k)) * X -
          if (shifter word poly seed w k).getLsbD (w - 1) then generator w poly else 0 := by
      rw [shifter_succ, bitPolynomial_shift1 w poly _ hmin hmax]
      ring
    rw [hstep]
    refine dvd_sub (ih.mul_right X) ?_
    split
    · exact dvd_rfl
    · exact dvd_zero _

end

/-- Settles O39: SR_w differs from the dividend by a multiple of the generator and has degree below w. -/
theorem stepIsThePolynomialRemainder : Obligations.StepIsThePolynomialRemainder := by
  intro word poly seed w hmin hmax
  have hdegree : (bitPolynomial w (crcStep word poly seed w)).degree < (generator w poly).degree :=
    (degree_bitPolynomial_lt w _).trans_eq (degree_generator w poly).symm
  have hremainder := modByMonic_eq_of_dvd_sub (generator_monic w poly)
    (generator_dvd_shifter w word poly seed hmin hmax w)
  exact ((modByMonic_eq_self_iff (generator_monic w poly)).2 hdegree).symm.trans hremainder.symm

end Sys2Proof.Machine
end

section
/-! The rules every step keeps: the invariant (spec/10_state.md R21, R26, spec/60_exceptions.md R204), the error lock
(R206) and the precision of an error (R202). -/

namespace Sys2Proof.Machine

/-! ## The registers a chain command leaves -/

section
variable (b : Block) (v : Byte)

@[simp] theorem Block.feedByte_width : (b.feedByte v).width = b.width := by
  obtain ⟨-, h⟩ | ⟨-, h⟩ := b.feedByte_eq v <;> simp [h]
@[simp] theorem Block.feedByte_poly : (b.feedByte v).poly = b.poly := by
  obtain ⟨-, h⟩ | ⟨-, h⟩ := b.feedByte_eq v <;> simp [h]
@[simp] theorem Block.feedByte_init : (b.feedByte v).init = b.init := by
  obtain ⟨-, h⟩ | ⟨-, h⟩ := b.feedByte_eq v <;> simp [h]

@[simp] theorem Block.closeChain_width : b.closeChain.width = b.width := by
  obtain ⟨_, h, -⟩ := b.closeChain_eq; simp [h]
@[simp] theorem Block.closeChain_poly : b.closeChain.poly = b.poly := by
  obtain ⟨_, h, -⟩ := b.closeChain_eq; simp [h]
@[simp] theorem Block.closeChain_init : b.closeChain.init = b.init := by
  obtain ⟨_, h, -⟩ := b.closeChain_eq; simp [h]
@[simp] theorem Block.closeChain_b0 : b.closeChain.b0 = b.b0 := by
  obtain ⟨_, h, -⟩ := b.closeChain_eq; simp [h]
@[simp] theorem Block.closeChain_b1 : b.closeChain.b1 = b.b1 := by
  obtain ⟨_, h, -⟩ := b.closeChain_eq; simp [h]
@[simp] theorem Block.closeChain_b2 : b.closeChain.b2 = b.b2 := by
  obtain ⟨_, h, -⟩ := b.closeChain_eq; simp [h]

@[simp] theorem Block.feedByte_active : (b.feedByte v).status.active = b.status.active := by
  obtain ⟨_, h⟩ := b.feedByte_status v; simp [h]
@[simp] theorem Block.feedByte_valid : (b.feedByte v).status.valid = b.status.valid := by
  obtain ⟨_, h⟩ := b.feedByte_status v; simp [h]
@[simp] theorem Block.feedByte_errorSet : (b.feedByte v).status.errorSet = b.status.errorSet := by
  obtain ⟨_, h⟩ := b.feedByte_status v; simp [h]

end

/-! ## The invariant -/

/-- The block after reset meets the invariant (R33). -/
theorem Block.inv_atReset (crc : Word) (b0 b1 b2 : Byte) : (Block.atReset crc b0 b1 b2).Inv := by
  simp [Block.Inv, Status.clear, Status.errorSet]

section
variable {b : Block} {i : Instr}

/-- Raising an error clears everything the invariant restricts (R203). -/
theorem Block.Inv.raise (h : b.Inv) (e : ErrorKind) : (b.raise e).Inv := by
  obtain ⟨hwidth, -⟩ := h
  simpa [Block.Inv] using hwidth

/-- Inside a chain no error is recorded and no result is valid. -/
theorem Block.Inv.of_active (h : b.Inv) (hactive : b.status.active = true) :
    b.status.errorSet = false ∧ b.status.valid = false := by
  obtain ⟨-, herr, hvalid, -⟩ := h
  exact ⟨by simpa [hactive] using herr, by simpa [hactive] using hvalid⟩

/-- With a valid result no error is recorded, no chain open and no byte buffered. -/
theorem Block.Inv.of_valid (h : b.Inv) (hv : b.status.valid = true) :
    b.status.errorSet = false ∧ b.status.active = false ∧ b.status.bcnt = 0 := by
  obtain ⟨-, herr, hvalid, hbcnt⟩ := h
  exact ⟨by simpa [hv] using herr, hvalid hv, by simpa [hvalid hv] using hbcnt⟩

/-- The width SETW writes is in 1..32 (R21, R173). -/
theorem widthField_of_not_badWidth {d : Word} (h : badWidth (.setw d) = false) :
    1 ≤ (widthField d).toNat ∧ (widthField d).toNat ≤ 32 := by
  rw [badWidth, Bool.not_eq_false', isWidth_iff] at h
  rwa [widthField_toNat h.2]

/-- What a command does when no check stops it keeps the invariant. -/
theorem Block.Inv.ownEffect (h : b.Inv) (hlock : lockedOut i b.status = false)
    (hseq : sequenceError i b.status = false) (hbad : badWidth i = false) : (ownEffect i b).Inv := by
  have ⟨hwidth, herr, hvalid, hbcnt⟩ := h
  cases i with
  | nop | setp _ | seti _ | stepw _ => exact h
  | setw d => exact ⟨widthField_of_not_badWidth hbad, herr, hvalid, hbcnt⟩
  | start =>
    have hclean : b.status.errorSet = false := by simpa [lockedOut] using hlock
    simpa [Block.Inv, Machine.ownEffect, hclean] using hwidth
  | byte v =>
    have hactive : b.status.active = true := by simpa [sequenceError] using hseq
    simpa [Block.Inv, Machine.ownEffect, hactive, h.of_active hactive] using hwidth
  | finish =>
    have hactive : b.status.active = true := by simpa [sequenceError] using hseq
    simpa [Block.Inv, Machine.ownEffect, h.of_active hactive] using hwidth
  | abort => exact h.raise .io
  | clrerr => simpa [Block.Inv, Machine.ownEffect] using ⟨hwidth, hvalid, hbcnt⟩

end

/-- Settles O46: State.reset is the block at reset for the draw of zeros. -/
theorem invariantHoldsAtReset : Obligations.InvariantHoldsAtReset :=
  ⟨Block.inv_atReset 0 0 0 0, fun crc b0 b1 b2 => ⟨Block.inv_atReset crc b0 b1 b2, rfl, rfl⟩⟩

/-- Settles O47: by what a step can have done to the block, each of which keeps the invariant. -/
theorem invariantKeptByEveryStep : Obligations.InvariantKeptByEveryStep := by
  intro s t hinv h
  rw [State.Inv]
  obtain hb | ⟨-, hb⟩ | ⟨e, hb⟩ | ⟨i, -, hlock, hseq, hbad, hb⟩ := step_block_cases h <;> rw [hb]
  · exact hinv
  · exact Block.inv_atReset _ _ _ _
  · exact Block.Inv.raise hinv e
  · exact Block.Inv.ownEffect hinv hlock hseq hbad

/-! ## The error lock -/

/-- No checksum may be taken while VALID = 0 (R152, R243). -/
theorem Block.checksum_of_not_valid {b : Block} (h : b.status.valid = false) : b.checksum = none := by
  simp [Block.checksum, h]

/-- Under the error lock a command that no check stops, CLRERR aside, leaves the error, the closed chain and CRC
(R206). -/
theorem ownEffect_of_errorSet {i : Instr} {b : Block} (herr : b.status.errorSet = true)
    (hactive : b.status.active = false) (hvalid : b.status.valid = false) (hlock : lockedOut i b.status = false)
    (hseq : sequenceError i b.status = false) (hi : i ≠ .clrerr) :
    (ownEffect i b).status.errorSet = true ∧ (ownEffect i b).status.active = false ∧
      (ownEffect i b).status.valid = false ∧ (ownEffect i b).crc = b.crc := by
  cases i with
  | nop | setw _ | setp _ | seti _ => exact ⟨herr, hactive, hvalid, rfl⟩
  | start => simp [lockedOut, herr] at hlock
  | stepw _ | byte _ | finish => simp [sequenceError, hactive] at hseq
  | abort => simp [ownEffect]
  | clrerr => exact absurd rfl hi

/-- Settles O25: an error closes chain and result, so of the commands only CLRERR could change the four. -/
theorem lockEndsOnlyByClrerrOrReset : Obligations.LockEndsOnlyByClrerrOrReset := by
  intro s t hinv herr h hclrerr hreset
  obtain ⟨-, hlocked, -⟩ := hinv
  obtain ⟨hactive, hvalid, -⟩ := hlocked herr
  suffices hkept : t.block.status.errorSet = true ∧ t.block.status.active = false ∧ t.block.status.valid = false ∧
      t.block.crc = s.block.crc by
    obtain ⟨herr', hactive', hvalid', hcrc⟩ := hkept
    exact ⟨herr', hactive', hvalid', Block.checksum_of_not_valid hvalid', hcrc⟩
  obtain hb | ⟨hhead, -⟩ | ⟨e, hb⟩ | ⟨i, hpending, hlock, hseq, -, hb⟩ := step_block_cases h
  · rw [hb]
    exact ⟨herr, hactive, hvalid, rfl⟩
  · exact absurd hhead hreset
  · rw [hb]
    simp
  · have hi : i ≠ .clrerr := by
      rintro rfl
      exact hclrerr hpending
    rw [hb]
    exact ownEffect_of_errorSet herr hactive hvalid hlock hseq hi

/-! ## Errors are precise -/

/-- A command that raises an error has no other effect (R202). -/
theorem exec_of_commandError {i : Instr} {s : State} {e : ErrorKind} (h : commandError i s.block.status = some e) :
    exec i s = raiseError e s := by
  cases e with
  | seq =>
    have hseq := (commandError_eq_seq_iff i _).1 h
    exact exec_of_sequenceError (lockedOut_of_sequenceError hseq) hseq
  | cfg =>
    obtain ⟨hactive, hbad⟩ := (commandError_eq_cfg_iff i _).1 h
    cases i with
    | setw d => exact exec_of_badWidth rfl hactive hbad
    | _ => cases hbad
  | io =>
    obtain rfl := (commandError_eq_io_iff i _).1 h
    rfl
  | ill => exact absurd h (commandError_ne_ill i _)

/-- A step that raises an error takes the event and has no other effect (R202). -/
theorem step_of_nextError {s : State} {e : ErrorKind} (h : s.nextError = some e) :
    step s = .next (s.takeEvent.withBlock (s.block.raise e)) := by
  obtain ⟨t, hstep⟩ := exists_step_next s
  rw [hstep]
  obtain ⟨hp, -⟩ | ⟨hhead, -⟩ | ⟨why, hpending, rfl⟩ | ⟨i, hpending, hexec⟩ := step_next_cases hstep
  · simp [State.nextError, State.pending, hp] at h
  · obtain ⟨rest, hp⟩ := List.head?_eq_some_iff.1 hhead
    simp [State.nextError, State.pending, hp] at h
  · obtain rfl : .ill = e := by simpa [State.nextError, hpending] using h
    rfl
  · have herror : commandError i s.takeEvent.block.status = some e := by
      simpa [State.nextError, hpending] using h
    rw [← hexec, exec_of_commandError herror, raiseError_eq, State.takeEvent_block]

/-- Settles O27: a bit newly set is the bit of the error the step raises. -/
theorem errorsArePrecise : Obligations.ErrorsArePrecise := by
  intro e s t h hclear hset
  have herror := (step_has_iff_of_clear h hclear).1 hset
  exact Host.Outcome.next.inj (h.symm.trans (step_of_nextError herror))

end Sys2Proof.Machine
end

section
/-! What the spec leaves UNSPEC never comes to matter (spec/70_reset_and_hazards.md R242, spec/10_state.md R27): a
relational invariant. Blocks that agree on what a host can know take the same branch of every command, since the checks
read STATUS only, and a command reads CRC and the buffer only where they are known. -/

namespace Sys2Proof.Machine

/-- The CRC a closed chain leaves: the partial group's word folded, if there is one (R151). -/
theorem Block.closeChain_crc (b : Block) :
    b.closeChain.crc = (partialWord b).elim b.crc (crcStep · b.poly b.crc b.width.toNat) := by
  cases h : partialWord b <;> simp [Block.closeChain, Block.foldPartial, h]

/-! ## The relation is kept -/

/-- At reset all that can differ is UNSPEC (R33). -/
theorem Block.sameKnown_atReset (crc crc' : Word) (b0 b1 b2 b0' b1' b2' : Byte) :
    (Block.atReset crc b0 b1 b2).SameKnown (Block.atReset crc' b0' b1' b2') := by
  simp [Block.SameKnown, Status.clear]

section
variable {b c : Block} (h : b.SameKnown c)
include h

/-- STATUS is known. -/
theorem Block.SameKnown.status_eq : b.status = c.status := by
  obtain ⟨-, -, -, hstatus, -⟩ := h
  exact hstatus

/-- Raising an error makes CRC and the whole buffer unknown (R203). -/
theorem Block.SameKnown.raise (e : ErrorKind) : (b.raise e).SameKnown (c.raise e) := by
  obtain ⟨hwidth, hpoly, hinit, hstatus, -⟩ := h
  simp [Block.SameKnown, hwidth, hpoly, hinit, hstatus]

/-- The word of the partial group is known: it reads buffered bytes only (R55). -/
theorem Block.SameKnown.partialWord_eq : partialWord b = partialWord c := by
  obtain ⟨-, -, -, hstatus, -, hb0, hb1, hb2⟩ := h
  rcases bcnt_cases b.status.bcnt with hn | hn | hn | hn <;> simp_all [partialWord]

/-- A chain is open, so CRC is known, and closing it leaves a known CRC (R151). -/
theorem Block.SameKnown.closeChain (hactive : b.status.active = true) : b.closeChain.SameKnown c.closeChain := by
  have hword := h.partialWord_eq
  obtain ⟨hwidth, hpoly, hinit, hstatus, hcrc, -⟩ := h
  simp [Block.SameKnown, Block.closeChain_crc, hword, hwidth, hpoly, hinit, hstatus, hcrc (.inl hactive)]

/-- A chain is open, so CRC is known; the byte fed becomes known, and at the fourth byte the whole group is (R141). -/
theorem Block.SameKnown.feedByte (v : Byte) (hactive : b.status.active = true) :
    (b.feedByte v).SameKnown (c.feedByte v) := by
  obtain ⟨hwidth, hpoly, hinit, hstatus, hcrc, hb0, hb1, hb2⟩ := h
  rcases bcnt_cases b.status.bcnt with hn | hn | hn | hn
  · rw [Block.feedByte_of_bcnt_zero v hn, Block.feedByte_of_bcnt_zero v (hstatus ▸ hn)]
    simp_all [Block.SameKnown]
  · rw [Block.feedByte_of_bcnt_one v hn, Block.feedByte_of_bcnt_one v (hstatus ▸ hn)]
    simp_all [Block.SameKnown]
  · rw [Block.feedByte_of_bcnt_two v hn, Block.feedByte_of_bcnt_two v (hstatus ▸ hn)]
    simp_all [Block.SameKnown]
  · rw [Block.feedByte_of_bcnt_three v hn, Block.feedByte_of_bcnt_three v (hstatus ▸ hn)]
    simp_all [Block.SameKnown]

/-- What a command does when no check stops it: STEPW, BYTE and FINISH find a chain open, and the others read neither
CRC nor the buffer. -/
theorem Block.SameKnown.ownEffect {i : Instr} (hseq : sequenceError i b.status = false) :
    (ownEffect i b).SameKnown (ownEffect i c) := by
  have ⟨hwidth, hpoly, hinit, hstatus, hcrc, hb0, hb1, hb2⟩ := h
  cases i with
  | nop => exact h
  | setw d => exact ⟨rfl, hpoly, hinit, hstatus, hcrc, hb0, hb1, hb2⟩
  | setp d => exact ⟨hwidth, rfl, hinit, hstatus, hcrc, hb0, hb1, hb2⟩
  | seti d => exact ⟨hwidth, hpoly, rfl, hstatus, hcrc, hb0, hb1, hb2⟩
  | start => simp [Block.SameKnown, Machine.ownEffect, hwidth, hpoly, hinit, hstatus]
  | stepw d =>
    have hactive : b.status.active = true := by
      simp only [sequenceError, Bool.or_eq_false_iff, Bool.not_eq_false'] at hseq
      exact hseq.1
    have hfolded : (b.fold d).crc = (c.fold d).crc := by
      simp [hwidth, hpoly, hcrc (.inl hactive)]
    exact ⟨hwidth, hpoly, hinit, hstatus, fun _ => hfolded, hb0, hb1, hb2⟩
  | byte v => exact h.feedByte v (by simpa [sequenceError] using hseq)
  | finish => exact h.closeChain (by simpa [sequenceError] using hseq)
  | abort => exact h.raise .io
  | clrerr =>
    exact ⟨hwidth, hpoly, hinit, congrArg Status.clearErrors hstatus, hcrc, hb0, hb1, hb2⟩

/-- Every command keeps the relation: STATUS being the same, the same check decides. -/
theorem Block.SameKnown.commandEffect (i : Instr) : (commandEffect i b).SameKnown (commandEffect i c) := by
  simp only [Machine.commandEffect, ← h.status_eq]
  split
  · exact h
  split
  · exact h.raise .seq
  next hseq =>
    split
    · exact h.raise .cfg
    · exact h.ownEffect (by simpa using hseq)

/-- A checksum is taken of a valid result only, whose CRC is known (R152). -/
theorem Block.SameKnown.checksum_eq : b.checksum = c.checksum := by
  obtain ⟨-, -, -, hstatus, hcrc, -⟩ := h
  rw [Block.checksum, Block.checksum, ← hstatus]
  split
  next hvalid =>
    have hv : b.status.valid = true := by simp_all
    rw [hcrc (.inr hv)]
  next => rfl

end

section
variable {s s' t : State}

/-- The same events lead to machines in the relation again. -/
theorem State.SameKnown.step (h : s.SameKnown s') (hstep : step s = .next t) :
    ∃ t', step s' = .next t' ∧ t.SameKnown t' := by
  obtain ⟨hblock, hport⟩ := h
  obtain ⟨hp, hs⟩ | ⟨rest, hp, hs⟩ | ⟨w, rest, why, hp, hd, hs⟩ | ⟨w, rest, i, hp, hd, hs⟩ := step_cases s <;>
    rw [hstep] at hs
  · obtain rfl := Host.Outcome.next.inj hs
    exact ⟨s', step_of_port_nil (hport ▸ hp), hblock, hport⟩
  · obtain rfl := Host.Outcome.next.inj hs
    exact ⟨_, step_reset (hport ▸ hp), Block.sameKnown_atReset .., rfl⟩
  · obtain rfl := Host.Outcome.next.inj hs
    exact ⟨_, raisesIllegal_of_decode_error hd s' rest (hport ▸ hp), hblock.raise .ill, rfl⟩
  · rw [exec_eq_commandEffect] at hs
    obtain rfl := Host.Outcome.next.inj hs
    have hp' : s'.port = .command w :: rest := hport ▸ hp
    exact ⟨_, (step_of_decode_ok hp' hd).trans (exec_eq_commandEffect i _), hblock.commandEffect i, rfl⟩

/-- And so does every run. -/
theorem State.SameKnown.run (n : Nat) (h : s.SameKnown s') (hrun : Host.Core.run Sys2Proof.core n s = .next t) :
    ∃ t', Host.Core.run Sys2Proof.core n s' = .next t' ∧ t.SameKnown t' := by
  induction n generalizing s s' with
  | zero =>
    obtain rfl : s = t := Host.Outcome.next.inj hrun
    exact ⟨s', rfl, h⟩
  | succ n ih =>
    obtain ⟨u, hu⟩ := exists_step_next s
    obtain ⟨u', hu', hsame⟩ := h.step hu
    rw [run_of_step n hu] at hrun
    rw [run_of_step n hu']
    exact ih hsame hrun

end

/-! ## The obligations -/

/-- Settles O48: the step lemma, and what the relation says of the ports. -/
theorem unspecValuesNeverReachAChecksum : Obligations.UnspecValuesNeverReachAChecksum := by
  refine ⟨fun s s' t h hstep => h.step hstep, fun s s' ⟨hblock, _⟩ => ?_⟩
  have ⟨hwidth, hpoly, hinit, _, hcrc, _⟩ := hblock
  exact ⟨hblock.checksum_eq, congrArg Status.toBits hblock.status_eq, hwidth, hpoly, hinit,
    fun hactive => hcrc (.inl hactive)⟩

/-- Settles O49: two draws are in the relation at reset, and every run keeps it. -/
theorem everyDrawGivesTheSameChecksum : Obligations.EveryDrawGivesTheSameChecksum := by
  intro crc crc' b0 b1 b2 b0' b1' b2' port draws draws' n t hrun
  have hreset : State.SameKnown ⟨Block.atReset crc b0 b1 b2, port, draws⟩
      ⟨Block.atReset crc' b0' b1' b2', port, draws'⟩ :=
    ⟨Block.sameKnown_atReset .., rfl⟩
  obtain ⟨t', hrun', hblock, -⟩ := hreset.run n hrun
  exact ⟨t', hrun', hblock.checksum_eq, congrArg Status.toBits hblock.status_eq⟩

end Sys2Proof.Machine
end

section
/-! What each command writes and what it leaves (spec/10_state.md sections 2 to 5, spec/41_chainer.md,
spec/42_control.md): from the effect of a command on the block, by the check that decides. -/

namespace Sys2Proof.Machine

/-! ## The writers of each register -/

section
variable {i : Instr} {b : Block}

/-- Only SETW writes WIDTH (R21). -/
theorem writer_of_width : (commandEffect i b).width ≠ b.width → ∃ d, i = .setw d :=
  commandEffect_cases (P := fun c => c.width ≠ b.width → ∃ d, i = .setw d)
    (absurd rfl) (fun _ => absurd rfl) fun _ _ _ => by cases i <;> simp [ownEffect]

/-- Only SETP writes POLY (R22). -/
theorem writer_of_poly : (commandEffect i b).poly ≠ b.poly → ∃ d, i = .setp d :=
  commandEffect_cases (P := fun c => c.poly ≠ b.poly → ∃ d, i = .setp d)
    (absurd rfl) (fun _ => absurd rfl) fun _ _ _ => by cases i <;> simp [ownEffect]

/-- Only SETI writes INIT (R23). -/
theorem writer_of_init : (commandEffect i b).init ≠ b.init → ∃ d, i = .seti d :=
  commandEffect_cases (P := fun c => c.init ≠ b.init → ∃ d, i = .seti d)
    (absurd rfl) (fun _ => absurd rfl) fun _ _ _ => by cases i <;> simp [ownEffect]

/-- Only the chain commands write CRC (R24). -/
theorem writer_of_crc : (commandEffect i b).crc ≠ b.crc →
    i = .start ∨ (∃ d, i = .stepw d) ∨ (∃ v, i = .byte v) ∨ i = .finish :=
  commandEffect_cases (P := fun c => c.crc ≠ b.crc →
      i = .start ∨ (∃ d, i = .stepw d) ∨ (∃ v, i = .byte v) ∨ i = .finish)
    (absurd rfl) (fun _ => absurd rfl) fun _ _ _ => by cases i <;> simp [ownEffect]

/-- Only BYTE writes the buffer (R27). -/
theorem writer_of_buffer : (commandEffect i b).b0 ≠ b.b0 ∨ (commandEffect i b).b1 ≠ b.b1 ∨
    (commandEffect i b).b2 ≠ b.b2 → ∃ v, i = .byte v :=
  commandEffect_cases (P := fun c => c.b0 ≠ b.b0 ∨ c.b1 ≠ b.b1 ∨ c.b2 ≠ b.b2 → ∃ v, i = .byte v)
    (by simp) (by simp) fun _ _ _ => by cases i <;> simp [ownEffect]

/-- Only START sets ACTIVE (R26). -/
theorem writer_of_active (h : b.status.active = false) : (commandEffect i b).status.active = true → i = .start :=
  commandEffect_cases (P := fun c => c.status.active = true → i = .start)
    (by simp [h]) (by simp) fun _ _ _ => by cases i <;> simp [ownEffect, h]

/-- Only FINISH sets VALID (R26). -/
theorem writer_of_valid (h : b.status.valid = false) : (commandEffect i b).status.valid = true → i = .finish :=
  commandEffect_cases (P := fun c => c.status.valid = true → i = .finish)
    (by simp [h]) (by simp) fun _ _ _ => by cases i <;> simp [ownEffect, h]

/-- Only START and an error clear VALID (R26). -/
theorem clearer_of_valid (h : b.status.valid = true) : (commandEffect i b).status.valid = false →
    i = .start ∨ (commandEffect i b).status.errorSet = true :=
  commandEffect_cases (P := fun c => c.status.valid = false → i = .start ∨ c.status.errorSet = true)
    (by simp [h]) (by simp) fun _ _ _ => by cases i <;> simp [ownEffect, h]

/-- Only FINISH and an error clear ACTIVE (R26). -/
theorem clearer_of_active (h : b.status.active = true) : (commandEffect i b).status.active = false →
    i = .finish ∨ (commandEffect i b).status.errorSet = true :=
  commandEffect_cases (P := fun c => c.status.active = false → i = .finish ∨ c.status.errorSet = true)
    (by simp [h]) (by simp) fun _ _ _ => by cases i <;> simp [ownEffect, h]

/-- Only BYTE sets BCNT to another count than 0 (R26). -/
theorem writer_of_bcnt : (commandEffect i b).status.bcnt ≠ b.status.bcnt → (commandEffect i b).status.bcnt ≠ 0 →
    ∃ v, i = .byte v :=
  commandEffect_cases (P := fun c => c.status.bcnt ≠ b.status.bcnt → c.status.bcnt ≠ 0 → ∃ v, i = .byte v)
    (by simp) (by simp) fun _ _ _ => by cases i <;> simp [ownEffect]

end

/-- Settles O52: register by register, over the effect of a command. -/
theorem eachRegisterHasItsWriters : Obligations.EachRegisterHasItsWriters := by
  intro i s t h
  have hhas := exec_has_iff h
  obtain rfl := eq_of_exec h
  refine ⟨writer_of_width, writer_of_poly, writer_of_init, writer_of_crc, writer_of_buffer, writer_of_active,
    writer_of_valid, clearer_of_valid, clearer_of_active, writer_of_bcnt, fun e hset hclear => ?_, rfl, rfl⟩
  by_contra hi
  rw [(hhas e).2 (.inr ⟨hset, hi⟩)] at hclear
  cases hclear

/-! ## The configuration inside a chain -/

/-- In a chain no command writes the configuration: those that would are sequence errors (R130, R172). -/
theorem commandEffect_config_of_active {b : Block} (i : Instr) (hactive : b.status.active = true) :
    (commandEffect i b).width = b.width ∧ (commandEffect i b).poly = b.poly ∧ (commandEffect i b).init = b.init := by
  refine commandEffect_cases (P := fun c => c.width = b.width ∧ c.poly = b.poly ∧ c.init = b.init)
    ⟨rfl, rfl, rfl⟩ (fun _ => ⟨rfl, rfl, rfl⟩) fun _ hseq _ => ?_
  cases i with
  | setw _ | setp _ | seti _ => simp [sequenceError, hactive] at hseq
  | _ => simp [ownEffect]

/-- The commands that would write the configuration are sequence errors in a chain (R172, R205). -/
theorem step_of_pending_config {s : State} {d : Word} (hactive : s.block.status.active = true)
    (h : s.pending = some (.ok (.setw d)) ∨ s.pending = some (.ok (.setp d)) ∨ s.pending = some (.ok (.seti d))) :
    step s = .next (s.takeEvent.withBlock (s.block.raise .seq)) := by
  apply step_of_nextError
  rcases h with h | h | h <;> simpa [State.nextError, h, commandError_eq_seq_iff, sequenceError] using hactive

/-- Settles O51: a step of no reset holds the block, raises ERR_ILL, or has a command's effect. -/
theorem configurationIsFixedInsideAChain : Obligations.ConfigurationIsFixedInsideAChain := by
  intro s t hactive hreset h
  have hconfig : t.block.width = s.block.width ∧ t.block.poly = s.block.poly ∧ t.block.init = s.block.init := by
    obtain ⟨-, rfl⟩ | ⟨hhead, -⟩ | ⟨_, -, rfl⟩ | ⟨i, -, hexec⟩ := step_next_cases h
    · exact ⟨rfl, rfl, rfl⟩
    · exact absurd hhead hreset
    · exact ⟨rfl, rfl, rfl⟩
    · rw [eq_of_exec hexec]
      exact commandEffect_config_of_active i hactive
  obtain ⟨hwidth, hpoly, hinit⟩ := hconfig
  refine ⟨hwidth, hpoly, hinit, fun d hd => ?_⟩
  rw [step_of_pending_config hactive hd] at h
  obtain rfl := Host.Outcome.next.inj h
  simp

/-! ## Frames -/

/-- Settles O53: SETW, SETP and SETI are checked for an open chain and SETW for its operand; each case is the raise of
the error or one register written. -/
theorem frameOfTheConfigurationCommands : Obligations.FrameOfTheConfigurationCommands := by
  intro d i s t hi h
  have hlock : lockedOut i s.block.status = false := by rcases hi with rfl | rfl | rfl <;> rfl
  have hseq : sequenceError i s.block.status = s.block.status.active := by rcases hi with rfl | rfl | rfl <;> rfl
  obtain rfl := eq_of_exec h
  cases hactive : s.block.status.active with
  | true =>
    have heffect : commandEffect i s.block = s.block.raise .seq := by simp [commandEffect, hlock, hseq, hactive]
    simp [heffect, Block.raise, Block.setStatus]
  | false =>
    cases hbad : badWidth i with
    | true =>
      have heffect : commandEffect i s.block = s.block.raise .cfg := by
        simp [commandEffect, hlock, hseq, hactive, hbad]
      simp [heffect, Block.raise, Block.setStatus]
    | false =>
      have heffect : commandEffect i s.block = ownEffect i s.block := by
        simp [commandEffect, hlock, hseq, hactive, hbad]
      rcases hi with rfl | rfl | rfl <;> simp [heffect, ownEffect]

section
variable (b : Block) (v : Byte)

/-- BYTE stores to B0 only when no byte is buffered (R141). -/
theorem Block.feedByte_b0 (h : b.status.bcnt ≠ 0) : (b.feedByte v).b0 = b.b0 := by
  rcases bcnt_cases b.status.bcnt with hn | hn | hn | hn
  · exact absurd hn h
  · rw [Block.feedByte_of_bcnt_one v hn]
  · rw [Block.feedByte_of_bcnt_two v hn]
  · rw [Block.feedByte_of_bcnt_three v hn]

/-- BYTE stores to B1 only when one byte is buffered (R141). -/
theorem Block.feedByte_b1 (h : b.status.bcnt ≠ 1) : (b.feedByte v).b1 = b.b1 := by
  rcases bcnt_cases b.status.bcnt with hn | hn | hn | hn
  · rw [Block.feedByte_of_bcnt_zero v hn]
  · exact absurd hn h
  · rw [Block.feedByte_of_bcnt_two v hn]
  · rw [Block.feedByte_of_bcnt_three v hn]

/-- BYTE stores to B2 only when two bytes are buffered (R141). -/
theorem Block.feedByte_b2 (h : b.status.bcnt ≠ 2) : (b.feedByte v).b2 = b.b2 := by
  rcases bcnt_cases b.status.bcnt with hn | hn | hn | hn
  · rw [Block.feedByte_of_bcnt_zero v hn]
  · rw [Block.feedByte_of_bcnt_one v hn]
  · exact absurd hn h
  · rw [Block.feedByte_of_bcnt_three v hn]

/-- BYTE leaves CRC while it only buffers (R141). -/
theorem Block.feedByte_crc (h : b.status.bcnt ≠ 3) : (b.feedByte v).crc = b.crc := by
  obtain ⟨hn, -⟩ | ⟨-, heq⟩ := b.feedByte_eq v
  · exact absurd hn h
  · simp [heq]

end

/-- Settles O54: under the lock START leaves everything, a sequence error changes STATUS as its raise does, and the own
effects have their equations. -/
theorem frameOfTheChainCommands : Obligations.FrameOfTheChainCommands := by
  intro d v i s t hi h
  obtain ⟨hlock, rfl⟩ | ⟨-, hseq, rfl⟩ | ⟨-, -, hbad, -⟩ | ⟨-, hseq, -, rfl⟩ := exec_cases h
  · obtain rfl : i = .start := by simp_all [lockedOut]
    simp [sequenceError_of_lockedOut hlock]
  · simp [hseq, Block.raise, Block.setStatus]
  · rcases hi with rfl | rfl | rfl | rfl <;> cases hbad
  · rcases hi with rfl | rfl | rfl | rfl
    · simp [hseq, ownEffect]
    · simp [hseq, ownEffect]
    · have hactive : s.block.status.active = true := by simpa [sequenceError] using hseq
      obtain ⟨n, hstatus⟩ := s.block.feedByte_status v
      simpa [hseq, ownEffect, hstatus, hactive] using
        ⟨s.block.feedByte_b0 v, s.block.feedByte_b1 v, s.block.feedByte_b2 v, s.block.feedByte_crc v⟩
    · simpa [hseq, ownEffect] using Block.closeChain_crc_of_bcnt_zero

/-- Settles O55: none of the three is checked, and each has its effect on STATUS alone. -/
theorem frameOfTheControlCommands : Obligations.FrameOfTheControlCommands := by
  intro i s t hi h
  obtain rfl := eq_of_exec h
  rcases hi with rfl | rfl | rfl
  · exact ⟨rfl, rfl, rfl, fun _ => rfl, nofun, nofun⟩
  · exact ⟨rfl, rfl, rfl, nofun, fun _ => ⟨rfl, rfl, rfl⟩, nofun⟩
  · exact ⟨rfl, rfl, rfl, nofun, nofun, fun _ => ⟨rfl, rfl, rfl⟩⟩

/-! ## A finished result -/

/-- A checksum is the one before when CRC, VALID and ERR ≠ 0 are (R152). -/
theorem Block.checksum_congr {b c : Block} (hcrc : b.crc = c.crc) (hvalid : b.status.valid = c.status.valid)
    (herr : b.status.errorSet = c.status.errorSet) : b.checksum = c.checksum := by
  rw [Block.checksum, Block.checksum, hcrc, hvalid, herr]

/-- Outside a chain ABORT, a bad width, STEPW, BYTE and FINISH each raise an error (R173, R178, R205). -/
theorem exists_commandError {i : Instr} {t : Status} (hactive : t.active = false)
    (hi : i = .abort ∨ badWidth i = true ∨ (∃ d, i = .stepw d) ∨ (∃ v, i = .byte v) ∨ i = .finish) :
    ∃ e, commandError i t = some e := by
  obtain rfl | hbad | ⟨d, rfl⟩ | ⟨v, rfl⟩ | rfl := hi
  · exact ⟨.io, (commandError_eq_io_iff _ t).2 rfl⟩
  · exact ⟨.cfg, (commandError_eq_cfg_iff i t).2 ⟨hactive, hbad⟩⟩
  · exact ⟨.seq, (commandError_eq_seq_iff _ t).2 (by simp [sequenceError, hactive])⟩
  · exact ⟨.seq, (commandError_eq_seq_iff _ t).2 (by simp [sequenceError, hactive])⟩
  · exact ⟨.seq, (commandError_eq_seq_iff _ t).2 (by simp [sequenceError, hactive])⟩

/-- Settles O57: with a valid result no chain is open and no error recorded (the invariant), which decides every
command's branch. -/
theorem resultStaysUntilAChainOrAnError : Obligations.ResultStaysUntilAChainOrAnError := by
  intro i s t h hinv hvalid
  obtain ⟨hclean, hactive, -⟩ := hinv.of_valid hvalid
  refine ⟨fun hstart hstepw hbyte hfinish habort hbad => ?_, fun herror => ?_, ?_⟩
  · obtain rfl := eq_of_exec h
    suffices hkept : (commandEffect i s.block).crc = s.block.crc ∧
        (commandEffect i s.block).status.valid = s.block.status.valid ∧
        (commandEffect i s.block).status.errorSet = s.block.status.errorSet by
      obtain ⟨hcrc, hv, he⟩ := hkept
      exact ⟨hv.trans hvalid, hcrc, Block.checksum_congr hcrc hv he⟩
    cases i with
    | nop => exact ⟨rfl, rfl, rfl⟩
    | setw d | setp d | seti d => simp [commandEffect, lockedOut, sequenceError, hactive, hbad, ownEffect]
    | clrerr => exact ⟨rfl, rfl, hclean.symm⟩
    | start => exact absurd rfl hstart
    | stepw d => exact absurd rfl (hstepw d)
    | byte v => exact absurd rfl (hbyte v)
    | finish => exact absurd rfl hfinish
    | abort => exact absurd rfl habort
  · obtain ⟨e, he⟩ := exists_commandError hactive herror
    rw [exec_of_commandError he, raiseError_eq] at h
    obtain rfl := Host.Outcome.next.inj h
    exact ⟨rfl, Status.errorSet_raise _ e, Block.checksum_of_not_valid rfl⟩
  · rintro rfl
    rw [exec_start_of_idle ⟨hclean, hactive⟩] at h
    obtain rfl := Host.Outcome.next.inj h
    exact ⟨rfl, rfl⟩

/-! ## CRC within the width -/

/-- What BYTE leaves in CRC: what was there, or the result of a step (R141). -/
theorem Block.feedByte_crc_cases (b : Block) (v : Byte) :
    (b.feedByte v).crc = b.crc ∨ (b.feedByte v).crc.toNat < 2 ^ b.width.toNat := by
  obtain ⟨-, h⟩ | ⟨-, h⟩ := b.feedByte_eq v
  · exact .inr (by simpa [h] using crcStep_lt _ _ _ _)
  · exact .inl (by simp [h])

/-- What FINISH leaves in CRC: what was there when no byte was buffered, else the result of a step (R151). -/
theorem Block.closeChain_crc_cases (b : Block) :
    (b.closeChain.crc = b.crc ∧ b.status.bcnt = 0) ∨ b.closeChain.crc.toNat < 2 ^ b.width.toNat := by
  obtain ⟨crc, h, ⟨rfl, hn⟩ | ⟨word, -, rfl, -⟩⟩ := b.closeChain_eq
  · exact .inl ⟨by simp [h], hn⟩
  · exact .inr (by simpa [h] using crcStep_lt _ _ _ _)

/-- What a command leaves in CRC: what was there, INIT when START opens a chain, or the result of a step (R24, R25). -/
theorem commandEffect_crc_cases (i : Instr) (b : Block) :
    (commandEffect i b).crc = b.crc ∨
    (i = .start ∧ b.status.active = false ∧ (commandEffect i b).crc = b.init) ∨
    (commandEffect i b).crc.toNat < 2 ^ (commandEffect i b).width.toNat := by
  refine commandEffect_cases (P := fun c => c.crc = b.crc ∨ (i = .start ∧ b.status.active = false ∧ c.crc = b.init) ∨
    c.crc.toNat < 2 ^ c.width.toNat) (.inl rfl) (fun _ => .inl rfl) fun hlock hseq _ => ?_
  cases i with
  | nop | setw _ | setp _ | seti _ | abort | clrerr => exact .inl rfl
  | start => exact .inr (.inl ⟨rfl, by simp_all [lockedOut, sequenceError], rfl⟩)
  | stepw d => exact .inr (.inr (crcStep_lt d b.poly b.crc b.width.toNat))
  | byte v => exact (b.feedByte_crc_cases v).imp_right fun h => .inr (by simpa [ownEffect] using h)
  | finish =>
    obtain ⟨h, -⟩ | h := b.closeChain_crc_cases
    · exact .inl h
    · exact .inr (.inr (by simpa [ownEffect] using h))

/-- Settles O50: the folding commands leave the result of a step, and in a chain the width stays. -/
theorem crcFitsTheWidthAfterAStep : Obligations.CrcFitsTheWidthAfterAStep := by
  refine fun s _ => ⟨fun d hseq => ?_, fun v hactive hbcnt => ?_, fun hactive hbcnt => ?_, fun hidle => ?_,
    fun i t h => ?_⟩
  · exact ⟨_, exec_of_no_check rfl hseq rfl, rfl, crcStep_lt d _ _ _⟩
  · exact ⟨_, exec_byte_of_active hactive (Block.feedByte_of_bcnt_three v hbcnt), rfl, crcStep_lt _ _ _ _⟩
  · refine ⟨_, exec_finish_of_active hactive, s.block.closeChain_width, ?_⟩
    exact s.block.closeChain_crc_cases.resolve_left fun h => hbcnt h.2
  · exact ⟨_, exec_start_of_idle hidle, rfl, rfl⟩
  · obtain rfl := eq_of_exec h
    have hcrc := commandEffect_crc_cases i s.block
    refine ⟨hcrc.imp_right (Or.imp_left fun ⟨hi, _, heq⟩ => ⟨hi, heq⟩), fun hactive hlt => ?_⟩
    obtain heq | ⟨-, hinactive, -⟩ | hlt' := hcrc
    · obtain ⟨hwidth, -, -⟩ := commandEffect_config_of_active i hactive
      simpa [heq, hwidth] using hlt
    · simp [hactive] at hinactive
    · exact hlt'

end Sys2Proof.Machine
end

section
/-! Whole chains (spec/41_chainer.md R132, R142 to R144). A run over a sequence of commands leaves the commands' effects
on the block, one after the other; what remains are claims about the block: STEPW folds the words of a chain, and the
word splitter folds the groups of a stream, four bytes at a time. -/

namespace Sys2Proof.Machine

/-! ## Running a sequence of commands -/

/-- The effects of a sequence of commands, one after the other. -/
def commandsEffect (is : List Instr) (b : Block) : Block := is.foldl (fun c i => commandEffect i c) b

/-- The effect of the first command comes first. -/
theorem commandsEffect_cons (i : Instr) (is : List Instr) (b : Block) :
    commandsEffect (i :: is) b = commandsEffect is (commandEffect i b) := rfl

/-- The effects of two sequences, one after the other. -/
theorem commandsEffect_append (is js : List Instr) (b : Block) :
    commandsEffect (is ++ js) b = commandsEffect js (commandsEffect is b) :=
  List.foldl_append

/-- A run over the presented commands leaves their effects and the events after them. -/
theorem run_commands (is : List Instr) {s : State} {rest : List HostEvent} (h : s.port = commandEvents is ++ rest) :
    Host.Core.run Sys2Proof.core is.length s =
      .next { s with port := rest, block := commandsEffect is s.block } := by
  induction is generalizing s with
  | nil =>
    obtain rfl : s.port = rest := h
    rfl
  | cons i is ih =>
    have hstep := (step_of_decode_ok h (decode_encode i)).trans (exec_eq_commandEffect i _)
    rw [List.length_cons, run_of_step _ hstep, ih rfl]
    rfl

/-! ## Chains of words -/

section
variable {b : Block}

/-- The words of a chain are folded one after the other (R132). -/
theorem commandsEffect_stepw (words : List Word) (hactive : b.status.active = true) (hbcnt : b.status.bcnt = 0) :
    commandsEffect (words.map .stepw) b = b.setCrc (chainWords words b.poly b.crc b.width.toNat) := by
  induction words generalizing b with
  | nil => rfl
  | cons word words ih =>
    rw [List.map_cons, commandsEffect_cons, commandEffect_stepw word hactive hbcnt,
      ih (b := b.fold word) hactive hbcnt]
    rfl

/-- The bytes of a chain are fed one after the other (R140). -/
theorem commandsEffect_byte (stream : List Byte) (hactive : b.status.active = true) :
    commandsEffect (stream.map .byte) b = stream.foldl Block.feedByte b := by
  induction stream generalizing b with
  | nil => rfl
  | cons v stream ih =>
    rw [List.map_cons, commandsEffect_cons, commandEffect_byte v hactive, ih (by simpa using hactive)]
    rfl

/-- A chain opened and closed with no error recorded leaves a valid result and nothing else in STATUS (R131, R151). -/
theorem Status.finished_opened {t : Status} (h : t.errorSet = false) :
    t.opened.finished = { Status.clear with valid := true } := by
  simp_all [Status.errorSet, Status.opened, Status.finished, Status.clear]

/-- A chain of words on an idle block (R132). -/
theorem commandsEffect_wordChain (words : List Word) (h : b.Idle) :
    commandsEffect (.start :: words.map .stepw ++ [.finish]) b = { b with
      crc := chainWords words b.poly b.init b.width.toNat
      status := { Status.clear with valid := true } } := by
  rw [List.cons_append, commandsEffect_cons, commandEffect_start h, commandsEffect_append,
    commandsEffect_stepw words rfl rfl, commandsEffect_cons, commandEffect_finish rfl,
    Block.closeChain_of_bcnt_zero rfl, ← Status.finished_opened h.1]
  rfl

/-! ## The word splitter over a stream -/

/-- Feeding bytes leaves the configuration, and of STATUS all but BCNT (R141). -/
theorem foldl_feedByte_frame (stream : List Byte) (b : Block) :
    (stream.foldl Block.feedByte b).width = b.width ∧ (stream.foldl Block.feedByte b).poly = b.poly ∧
      (stream.foldl Block.feedByte b).init = b.init ∧
      ∃ n, (stream.foldl Block.feedByte b).status = b.status.withBcnt n := by
  induction stream generalizing b with
  | nil => exact ⟨rfl, rfl, rfl, b.status.bcnt, rfl⟩
  | cons v stream ih =>
    obtain ⟨hwidth, hpoly, hinit, n, hstatus⟩ := ih (b.feedByte v)
    obtain ⟨m, hm⟩ := b.feedByte_status v
    have hstatus' : ((v :: stream).foldl Block.feedByte b).status = b.status.withBcnt n := by
      rw [List.foldl_cons, hstatus, hm]
      rfl
    exact ⟨by simpa using hwidth, by simpa using hpoly, by simpa using hinit, n, hstatus'⟩

/-- Four bytes from a group boundary are a group: its word is folded, and the next group begins (R141). -/
theorem feedByte_group (v0 v1 v2 v3 : Byte) (h : b.status.bcnt = 0) :
    (((b.feedByte v0).feedByte v1).feedByte v2).feedByte v3 =
      { b with
        crc := crcStep (groupWord v0 v1 v2 v3) b.poly b.crc b.width.toNat
        b0 := v0, b1 := v1, b2 := v2 } := by
  rw [Block.feedByte_of_bcnt_zero v0 h, Block.feedByte_of_bcnt_one v1 rfl, Block.feedByte_of_bcnt_two v2 rfl,
    Block.feedByte_of_bcnt_three v3 rfl]
  simp [← h]

/-- The first group of a stream is folded first (R140). -/
theorem chainFile_group (v0 v1 v2 v3 : Byte) (stream : List Byte) (poly init : Word) (w : Nat) :
    chainFile (v0 :: v1 :: v2 :: v3 :: stream) poly init w =
      chainFile stream poly (crcStep (groupWord v0 v1 v2 v3) poly init w) w := by
  have hgroups : ((v0 :: v1 :: v2 :: v3 :: stream).length + 3) / 4 = (stream.length + 3) / 4 + 1 := by
    simp only [List.length_cons]
    omega
  rw [chainFile, hgroups, List.range_succ_eq_map, List.map_cons, List.map_map]
  rfl

/-- A stream of one group, whole or partial, folds the group's word, zero past the end of the stream (R140). -/
theorem chainFile_one_group {stream : List Byte} {poly init : Word} {w : Nat}
    (h : 1 ≤ stream.length ∧ stream.length ≤ 4) :
    chainFile stream poly init w = crcStep (streamWord stream 0) poly init w := by
  have hgroups : (stream.length + 3) / 4 = 1 := by omega
  rw [chainFile, hgroups]
  rfl

/-- Closing a chain after a stream fed from a group boundary leaves chain_file of the stream: whole groups are folded
as they fill, and the padded rest at the end (R140, R142). -/
theorem closeChain_crc_foldl_feedByte (stream : List Byte) (b : Block) (h : b.status.bcnt = 0) :
    (stream.foldl Block.feedByte b).closeChain.crc = chainFile stream b.poly b.crc b.width.toNat := by
  match stream with
  | [] => exact Block.closeChain_crc_of_bcnt_zero h
  | [v0] =>
    have hword : streamWord [v0] 0 = groupWord v0 0 0 0 := rfl
    rw [chainFile_one_group (by simp), hword, List.foldl_cons, List.foldl_nil, Block.feedByte_of_bcnt_zero v0 h]
    refine Block.closeChain_crc_of_partialWord ?_
    exact partialWord_of_bcnt_one rfl
  | [v0, v1] =>
    have hword : streamWord [v0, v1] 0 = groupWord v0 v1 0 0 := rfl
    rw [chainFile_one_group (by simp), hword, List.foldl_cons, List.foldl_cons, List.foldl_nil,
      Block.feedByte_of_bcnt_zero v0 h, Block.feedByte_of_bcnt_one v1 rfl]
    refine Block.closeChain_crc_of_partialWord ?_
    exact partialWord_of_bcnt_two rfl
  | [v0, v1, v2] =>
    have hword : streamWord [v0, v1, v2] 0 = groupWord v0 v1 v2 0 := rfl
    rw [chainFile_one_group (by simp), hword, List.foldl_cons, List.foldl_cons, List.foldl_cons, List.foldl_nil,
      Block.feedByte_of_bcnt_zero v0 h, Block.feedByte_of_bcnt_one v1 rfl, Block.feedByte_of_bcnt_two v2 rfl]
    refine Block.closeChain_crc_of_partialWord ?_
    exact partialWord_of_bcnt_three rfl
  | v0 :: v1 :: v2 :: v3 :: stream =>
    rw [List.foldl_cons, List.foldl_cons, List.foldl_cons, List.foldl_cons, feedByte_group v0 v1 v2 v3 h,
      chainFile_group]
    exact closeChain_crc_foldl_feedByte stream _ h

/-- A chain of bytes on an idle block (R142). -/
theorem commandsEffect_byteChain (stream : List Byte) (h : b.Idle) :
    ∃ c, commandsEffect (.start :: stream.map .byte ++ [.finish]) b = c ∧
      c.crc = chainFile stream b.poly b.init b.width.toNat ∧ c.status = { Status.clear with valid := true } ∧
      c.width = b.width ∧ c.poly = b.poly ∧ c.init = b.init := by
  obtain ⟨hwidth, hpoly, hinit, n, hstatus⟩ := foldl_feedByte_frame stream b.openChain
  have hactive : (stream.foldl Block.feedByte b.openChain).status.active = true := by
    rw [hstatus]
    rfl
  refine ⟨(stream.foldl Block.feedByte b.openChain).closeChain, ?_, closeChain_crc_foldl_feedByte stream _ rfl, ?_, ?_⟩
  · rw [List.cons_append, commandsEffect_cons, commandEffect_start h, commandsEffect_append,
      commandsEffect_byte stream rfl, commandsEffect_cons, commandEffect_finish hactive]
    rfl
  · rw [Block.closeChain_status, hstatus, ← Status.finished_opened h.1]
    rfl
  · rw [Block.closeChain_width, Block.closeChain_poly, Block.closeChain_init]
    exact ⟨hwidth, hpoly, hinit⟩

end

/-! ## Words as groups of bytes -/

/-- The bytes of a word, least significant first (R53). -/
def wordBytes (w : Word) : List Byte :=
  [w.extractLsb' 0 8, w.extractLsb' 8 8, w.extractLsb' 16 8, w.extractLsb' 24 8]

/-- A word is the group of its bytes (R53). -/
theorem groupWord_wordBytes (w : Word) :
    groupWord (w.extractLsb' 0 8) (w.extractLsb' 8 8) (w.extractLsb' 16 8) (w.extractLsb' 24 8) = w := by
  have h := w.isLt
  apply BitVec.eq_of_toNat_eq
  rw [groupWord_toNat]
  simp only [BitVec.extractLsb'_toNat, Nat.shiftRight_eq_div_pow]
  omega

/-- A stream of whole groups folds the words of the groups (R144). -/
theorem chainFile_wordBytes (words : List Word) (poly init : Word) (w : Nat) :
    chainFile (words.flatMap wordBytes) poly init w = chainWords words poly init w := by
  induction words generalizing init with
  | nil => rfl
  | cons word words ih =>
    refine (chainFile_group _ _ _ _ (words.flatMap wordBytes) poly init w).trans ?_
    rw [groupWord_wordBytes, ih]
    rfl

/-! ## The obligations -/

/-- A chain of bytes run on an idle block (R142). -/
theorem run_byteChain {s : State} (stream : List Byte) {rest : List HostEvent} (h : s.block.Idle)
    (hport : s.port = commandEvents (.start :: stream.map .byte ++ [.finish]) ++ rest) :
    ∃ t : State, Host.Core.run Sys2Proof.core (stream.length + 2) s = .next t ∧
      t.block.crc = chainFile stream s.block.poly s.block.init s.block.width.toNat ∧
      t.block.status = { Status.clear with valid := true } ∧ t.port = rest ∧ t.draws = s.draws ∧
      t.block.width = s.block.width ∧ t.block.poly = s.block.poly ∧ t.block.init = s.block.init := by
  obtain ⟨c, hc, hcrc, hstatus, hconfig⟩ := commandsEffect_byteChain stream h
  have hrun := run_commands _ hport
  have hlength : (Instr.start :: stream.map .byte ++ [Instr.finish]).length = stream.length + 2 := by simp
  rw [hc, hlength] at hrun
  exact ⟨_, hrun, hcrc, hstatus, rfl, rfl, hconfig⟩

/-- A chain of words run on an idle block (R132). -/
theorem run_wordChain {s : State} (words : List Word) {rest : List HostEvent} (h : s.block.Idle)
    (hport : s.port = commandEvents (.start :: words.map .stepw ++ [.finish]) ++ rest) :
    Host.Core.run Sys2Proof.core (words.length + 2) s = .next { s with
      port := rest
      block := { s.block with
        crc := chainWords words s.block.poly s.block.init s.block.width.toNat
        status := { Status.clear with valid := true } } } := by
  have hrun := run_commands _ hport
  have hlength : (Instr.start :: words.map .stepw ++ [Instr.finish]).length = words.length + 2 := by simp
  rwa [commandsEffect_wordChain words h, hlength] at hrun

/-- Settles O42: TEXT's commands are the chain of its characters' words. -/
theorem textChainLeavesChainText : Obligations.TextChainLeavesChainText := by
  intro code strings s rest h hport
  have hwords : expandPseudo code (.text strings) =
      .start :: (strings.flatten.map code).map .stepw ++ [.finish] := by
    rw [expandPseudo, List.map_map]
    rfl
  have hrun := run_wordChain (strings.flatten.map code) h (hwords ▸ hport)
  rwa [List.length_map] at hrun

/-- Settles O43: FILE's commands are the chain of its bytes. -/
theorem fileChainLeavesChainFile : Obligations.FileChainLeavesChainFile := fun _ stream _ _ h hport =>
  run_byteChain stream h hport

/-- With only VALID set in STATUS the checksum is CRC (R152). -/
theorem Block.checksum_of_finished {b : Block} (h : b.status = { Status.clear with valid := true }) :
    b.checksum = some b.crc := by
  rw [Block.checksum, h]
  rfl

/-- Settles O44: both streams fold the one group of the byte and three zeros. -/
theorem oneByteFileEqualsItsZeroFilledFile : Obligations.OneByteFileEqualsItsZeroFilledFile := by
  intro code v s s' rest rest' h hblock hport hport'
  obtain ⟨t, hrun, hcrc, hstatus, -⟩ := run_byteChain [v] h hport
  obtain ⟨t', hrun', hcrc', hstatus', -⟩ := run_byteChain [v, 0, 0, 0] (hblock ▸ h) hport'
  have hword : streamWord [v] 0 = v.setWidth 32 := groupWord_pad_one v
  have hword' : streamWord [v, 0, 0, 0] 0 = v.setWidth 32 := groupWord_pad_one v
  rw [chainFile_one_group (by simp), hword] at hcrc
  rw [chainFile_one_group (by simp), hword', hblock] at hcrc'
  refine ⟨t, t', hrun, hrun', ?_, ?_⟩
  · rw [Block.checksum_of_finished hstatus, hcrc]
  · rw [Block.checksum_of_finished hstatus, Block.checksum_of_finished hstatus', hcrc, hcrc']

/-- Settles O45: the groups of the stream are the words. -/
theorem wholeGroupsFoldAsTheirWords : Obligations.WholeGroupsFoldAsTheirWords := by
  intro code words s rest h hport
  obtain ⟨t, hrun, hcrc, hstatus, -⟩ := run_byteChain (words.flatMap wordBytes) h hport
  have hlength : (words.flatMap wordBytes).length = 4 * words.length := by
    simp [List.length_flatMap, wordBytes, mul_comm]
  rw [hlength] at hrun
  rw [chainFile_wordBytes] at hcrc
  exact ⟨t, _, hrun, run_wordChain words h rfl, hcrc, hstatus, hcrc⟩

end Sys2Proof.Machine
end

section
/-! Lines of the assembler (spec/30_encoding.md R79, R80): a line is its keyword's commands over the tokens its operands
read as (`assembleLine_operands`), so what is left is what each keyword makes of such tokens. -/

namespace Sys2Proof.Machine

/-! ## Reading one operand -/

section
variable {code : Char → Word} {text : List Char} {n : Nat}

/-- The operand of SETW, SETP and SETI is the number's text (R79). -/
theorem readWord_text (h : IsNumberText text n) : readWord (.word text) = wordOperand n := by
  rw [readWord, numberOf_text text n h]
  rfl

/-- The operand of STEPW and CRCSTEP is a number's text or a character literal (R79). -/
theorem exists_readTextWord (h : IsNumberText text n ∨ IsCharText code text n) :
    ∃ token, ReadsAs text token ∧ readTextWord code token = wordOperand n := by
  obtain ⟨token, hreads, hnumber⟩ := numberOrCode_text code text n h
  refine ⟨token, hreads, ?_⟩
  rw [readTextWord, hnumber]
  rfl

/-- The operand of BYTE and FILE is a number's text or a character literal (R79). -/
theorem exists_readByte (h : IsNumberText text n ∨ IsCharText code text n) :
    ∃ token, ReadsAs text token ∧ readByte code token = byteOperand n := by
  obtain ⟨token, hreads, hnumber⟩ := numberOrCode_text code text n h
  refine ⟨token, hreads, ?_⟩
  rw [readByte, hnumber]
  rfl

/-- The number of a DATA fits DATA. -/
theorem wordOperand_toNat (x : Word) : wordOperand x.toNat = .ok x := by
  rw [wordOperand, if_pos x.isLt, BitVec.ofNat_toNat, BitVec.setWidth_eq]

/-- The number of a byte fits a byte. -/
theorem byteOperand_toNat (v : Byte) : byteOperand v.toNat = .ok v := by
  rw [byteOperand, if_pos v.isLt, BitVec.ofNat_toNat, BitVec.setWidth_eq]

/-- A command with a 32-bit operand: wider numbers are the error (R79). -/
theorem wordOperand_bind (f : Word → List Instr) : (wordOperand n >>= fun x => pure (f x)) =
    if n < 2 ^ 32 then .ok (f (BitVec.ofNat 32 n)) else .error .operandTooWide := by
  rw [wordOperand]
  split <;> rfl

/-- A command with an 8-bit operand: wider numbers are the error (R79). -/
theorem byteOperand_bind (f : Byte → List Instr) : (byteOperand n >>= fun x => pure (f x)) =
    if n < 2 ^ 8 then .ok (f (BitVec.ofNat 8 n)) else .error .operandTooWide := by
  rw [byteOperand]
  split <;> rfl

end

/-! ## Reading a list of operands -/

/-- The strings of TEXT are read as they stand (R80). -/
theorem readEach_strings (strings : List (List Char)) : readEach stringOf (strings.map .str) = .ok strings := by
  induction strings with
  | nil => rfl
  | cons cs strings ih =>
    rw [List.map_cons, readEach, ih]
    rfl

/-- The strings of TEXT between their quotes are string tokens (R80). -/
theorem strings_read (strings : List (List Char)) (h : ∀ cs ∈ strings, doubleQuote ∉ cs) :
    List.Forall₂ ReadsAs (strings.map fun cs => doubleQuote :: cs ++ [doubleQuote]) (strings.map .str) := by
  rw [List.forall₂_map_left_iff, List.forall₂_map_right_iff, List.forall₂_same]
  exact fun cs hcs => string_reads cs (h cs hcs)

/-- The operands of FILE read as tokens that denote its bytes (R80). -/
theorem exists_readEach_bytes {code : Char → Word} {texts : List (List Char)} {bytes : List Byte}
    (h : List.Forall₂ (fun text (v : Byte) => IsNumberText text v.toNat ∨ IsCharText code text v.toNat) texts bytes) :
    ∃ tokens, List.Forall₂ ReadsAs texts tokens ∧ readEach (readByte code) tokens = .ok bytes := by
  induction h with
  | nil => exact ⟨[], .nil, rfl⟩
  | cons hv _ ih =>
    obtain ⟨token, hreads, hbyte⟩ := exists_readByte hv
    obtain ⟨tokens, hreads', hbytes⟩ := ih
    refine ⟨token :: tokens, .cons hreads hreads', ?_⟩
    rw [readEach, hbyte, byteOperand_toNat, hbytes]
    rfl

/-! ## Assembled words -/

/-- The words of a line are the encodings of its commands (R70). -/
theorem assembleWords_eq_ok {code : Char → Word} {line : List Char} {ws : List CommandWord}
    (h : assembleWords code line = .ok ws) : ∃ is, assembleLine code line = .ok is ∧ ws = is.map encode := by
  rw [assembleWords] at h
  cases hline : assembleLine code line with
  | error why =>
    rw [hline] at h
    cases h
  | ok is =>
    rw [hline] at h
    exact ⟨is, rfl, (Except.ok.inj h).symm⟩

/-- A command's word is legal (R77, R78). -/
theorem isLegal_encode (i : Instr) : isLegal (encode i) = true := by
  have hlegal : isIllegal (encode i) ≠ true := by
    rw [Ne, isIllegal_iff_decode_error, decode_encode]
    rintro ⟨why, h⟩
    cases h
  simpa [isLegal] using hlegal

/-- A command's word is OP·2^32 + operand (R70). -/
theorem encode_toNat (i : Instr) : (encode i).toNat = (opcode i).toNat * 2 ^ 32 + (operand i).toNat :=
  Laws.LegalEncoding.commandWord_toNat _ _

/-! ## The obligations -/

/-- Settles O58: words are encodings of commands; a line of a keyword is the keyword's command over the one token its
operand reads as. -/
theorem assembledWordsAreLegalCommands : Obligations.AssembledWordsAreLegalCommands := by
  refine fun code => ⟨fun line ws h => ?_, fun lead name fin hl hf => ⟨?_, ?_, ?_, ?_, ?_, ?_, ?_⟩⟩
  · obtain ⟨is, hline, rfl⟩ := assembleWords_eq_ok h
    refine ⟨is, hline, rfl, ?_, ?_⟩
    · rw [List.map_map]
      exact List.map_congr_left fun i _ => encode_toNat i
    · intro w hw
      obtain ⟨i, hi, rfl⟩ := List.mem_map.1 hw
      exact ⟨isLegal_encode i, i, hi, decode_encode i⟩
  · rw [assembleLine, lex_gap_end fin hf]
    rfl
  · exact fun hn => assembleLine_bare code lead name fin .nop hl hn hf
  · exact fun hn => assembleLine_bare code lead name fin .start hl hn hf
  · exact fun hn => assembleLine_bare code lead name fin .finish hl hn hf
  · exact fun hn => assembleLine_bare code lead name fin .abort hl hn hf
  · exact fun hn => assembleLine_bare code lead name fin .clrerr hl hn hf
  · intro gap text n hg hgne
    have line (k : Keyword) (token : Token) (hn : IsNameText name k.name) (ht : ReadsAs text token) :
        assembleLine code (lead ++ name ++ gap ++ text ++ fin) = assembleKeyword code k [token] :=
      assembleLine_operand code lead name gap text fin token k hl hn hg hgne hf ht
    refine ⟨fun ht hn => ?_, fun ht hn => ?_, fun ht hn => ?_, fun ht hn => ?_, fun ht hn => ?_, ?_⟩
    · rw [line .setw _ hn (numberText_reads text n ht), assembleKeyword, readWord_text ht, wordOperand_bind]
    · rw [line .setp _ hn (numberText_reads text n ht), assembleKeyword, readWord_text ht, wordOperand_bind]
    · rw [line .seti _ hn (numberText_reads text n ht), assembleKeyword, readWord_text ht, wordOperand_bind]
    · obtain ⟨token, hreads, hread⟩ := exists_readTextWord ht
      rw [line .stepw _ hn hreads, assembleKeyword, hread, wordOperand_bind]
    · obtain ⟨token, hreads, hread⟩ := exists_readByte ht
      rw [line .byte _ hn hreads, assembleKeyword, hread, byteOperand_bind]
    · rintro ⟨c, rfl, -⟩ (hn | hn | hn)
      · exact ⟨.badOperand, line .setw _ hn (char_reads c)⟩
      · exact ⟨.badOperand, line .setp _ hn (char_reads c)⟩
      · exact ⟨.badOperand, line .seti _ hn (char_reads c)⟩

/-- Settles O60: the operands of each pseudo-instruction read as tokens that denote them. -/
theorem pseudoInstructionLinesAreTheirExpansions : Obligations.PseudoInstructionLinesAreTheirExpansions := by
  intro code lead name gap fin hl hg hgne hf
  have line (k : Keyword) (texts : List (List Char)) (tokens : List Token) (hn : IsNameText name k.name)
      (ht : List.Forall₂ ReadsAs texts tokens) :
      assembleLine code (lead ++ name ++ gap ++ operandsText texts ++ fin) = assembleKeyword code k tokens :=
    assembleLine_operands code lead name gap fin texts tokens k hl hn hg hgne hf ht
  refine ⟨fun w p i tw tp ti hn hw hp hi => ?_, fun x text hn hx => ?_, fun strings hn hquotes => ?_,
    fun bytes texts hn hbytes => ?_⟩
  · have hreads : List.Forall₂ ReadsAs [tw, tp, ti] [.word tw, .word tp, .word ti] :=
      .cons (numberText_reads tw _ hw) (.cons (numberText_reads tp _ hp) (.cons (numberText_reads ti _ hi) .nil))
    rw [line .config _ _ hn hreads, assembleKeyword, readWord_text hw, readWord_text hp, readWord_text hi,
      wordOperand_toNat, wordOperand_toNat, wordOperand_toNat]
    rfl
  · obtain ⟨token, hreads, hread⟩ := exists_readTextWord hx
    rw [assembleLine_operand code lead name gap text fin token .crcstep hl hn hg hgne hf hreads, assembleKeyword,
      hread, wordOperand_toNat]
    rfl
  · rw [line .text _ _ hn (strings_read strings hquotes), assembleKeyword, readEach_strings]
    rfl
  · obtain ⟨tokens, hreads, hread⟩ := exists_readEach_bytes hbytes
    rw [line .file _ _ hn hreads, assembleKeyword, hread]
    rfl

end Sys2Proof.Machine
end
